-- ==== Sys2Proof/Word.lean ====
section
/-! DEFINITION. The word of the core: a byte. Every register, memory cell, pc, sp, fl and every datum moved is one
(spec 00_scope.md R6, R9). -/

namespace Sys2Proof

/-- A byte, an unsigned integer in 0..255 (00_scope.md R9). -/
abbrev Byte := BitVec 8

end Sys2Proof
end

