-- ==== Sys2Proof/Config.lean ====
section
/-! DEFINITION. The implementation parameters of the core (spec 00_scope.md R6) and the type of its one open parameter,
`OPCODE_MAP` (R7). The default map itself stands in Decode.lean. -/

namespace Sys2Proof

/-- The 16 instructions the core admits, by name, in the order of 30_encoding.md R66 (00_scope.md R2). -/
inductive Mnemonic where
  | hlt | ret | push | pop | prn | call | jmp | jeq | jne | ldi | add | mul | cmp | and | or | xor
  deriving DecidableEq, Repr

/-- All 16, once each. -/
def Mnemonic.all : List Mnemonic :=
  [.hlt, .ret, .push, .pop, .prn, .call, .jmp, .jeq, .jne, .ldi, .add, .mul, .cmp, .and, .or, .xor]

/-- `OPCODE_MAP` is "a function from the 16 mnemonics to distinct byte values" (00_scope.md R7). -/
abbrev OpcodeMap := Mnemonic → Byte

namespace Config

/-- Number of memory cells, `MEMSIZE` (00_scope.md R6). Addresses are 0 to 255. -/
def memSize : Nat := 256

/-- Number of general registers, `NREG` (00_scope.md R6). -/
abbrev numRegs : Nat := 8

/-- `SP_RESET`: the reset value of sp and of r7 (00_scope.md R6). -/
def spReset : Byte := 244

/-- The entry point: address 0 (20_memory.md R48). -/
def entryPoint : Byte := 0

/-- The reset value of fl (10_state.md R28; the spec's decision D25, log 5). -/
def flagsReset : Byte := 0

end Config

end Sys2Proof
end

