-- ==== Sys2Proof/Syntax.lean ====
section
/-! DEFINITION. The instructions as syntax: one constructor per row of spec/opcode_table.json (30_encoding.md R66).
An operand is the whole byte of the encoding, with no masking (R65): a register-index operand may be 8 to 255, which
faults when the register is accessed, and `ldi`'s second operand is an immediate. -/

namespace Sys2Proof

/-- An instruction with the operand bytes it uses: `a` is operand A, `b` operand B (30_encoding.md R60, R62 to R64). -/
inductive Instr where
  /-- HLT: stop the core (44_system_and_output.md R160). -/
  | hlt
  /-- RET: return from a subroutine (43_control_transfer.md R141). -/
  | ret
  /-- PUSH ra (42_register_and_stack.md R131). -/
  | push (a : Byte)
  /-- POP ra (42_register_and_stack.md R132). -/
  | pop (a : Byte)
  /-- PRN ra (44_system_and_output.md R161). -/
  | prn (a : Byte)
  /-- CALL ra (43_control_transfer.md R140). -/
  | call (a : Byte)
  /-- JMP ra (43_control_transfer.md R142). -/
  | jmp (a : Byte)
  /-- JEQ ra (43_control_transfer.md R143). -/
  | jeq (a : Byte)
  /-- JNE ra (43_control_transfer.md R144). -/
  | jne (a : Byte)
  /-- LDI ra, imm (42_register_and_stack.md R130). -/
  | ldi (a imm : Byte)
  /-- ADD ra, rb (41_alu.md R111). -/
  | add (a b : Byte)
  /-- MUL ra, rb (41_alu.md R112). -/
  | mul (a b : Byte)
  /-- CMP ra, rb (41_alu.md R116). -/
  | cmp (a b : Byte)
  /-- AND ra, rb (41_alu.md R113). -/
  | and (a b : Byte)
  /-- OR ra, rb (41_alu.md R114). -/
  | or (a b : Byte)
  /-- XOR ra, rb (41_alu.md R115). -/
  | xor (a b : Byte)
  deriving DecidableEq, Repr

namespace Instr

/-- The name of an instruction. -/
def mnemonic : Instr → Mnemonic
  | .hlt => .hlt
  | .ret => .ret
  | .push _ => .push
  | .pop _ => .pop
  | .prn _ => .prn
  | .call _ => .call
  | .jmp _ => .jmp
  | .jeq _ => .jeq
  | .jne _ => .jne
  | .ldi _ _ => .ldi
  | .add _ _ => .add
  | .mul _ _ => .mul
  | .cmp _ _ => .cmp
  | .and _ _ => .and
  | .or _ _ => .or
  | .xor _ _ => .xor

/-- The operand bytes of an instruction, in address order (30_encoding.md R60). -/
def operands : Instr → List Byte
  | .hlt | .ret => []
  | .push a | .pop a | .prn a | .call a | .jmp a | .jeq a | .jne a => [a]
  | .ldi a b | .add a b | .mul a b | .cmp a b | .and a b | .or a b | .xor a b => [a, b]

/-- The operand bytes of an instruction that are register indices: all but LDI's immediate (30_encoding.md R65). -/
def registerOperands : Instr → List Byte
  | .hlt | .ret => []
  | .push a | .pop a | .prn a | .call a | .jmp a | .jeq a | .jne a | .ldi a _ => [a]
  | .add a b | .mul a b | .cmp a b | .and a b | .or a b | .xor a b => [a, b]

end Instr

end Sys2Proof
end

