-- ==== Sys2Proof/WellFormed.lean ====
section
/-! DEFINITION. What a program owes the core (spec 70_reset_and_hazards.md R193, R191). Every instruction term is
encodable and every encoding of the 16 opcodes decodes, so these checks restrict no decoder and no meaning: an
ill-formed instruction is one whose execution would access a register that does not exist, which the machine answers
with the fault the spec names (log 9). -/

namespace Sys2Proof

/-- The byte names a general register, r0 to r7 (30_encoding.md R65). -/
def namesRegister (i : Byte) : Bool := decide (i.toNat < Config.numRegs)

/-- "Every register-index operand it executes is 0..7" (70_reset_and_hazards.md R193). -/
def Instr.wellFormed (i : Instr) : Bool := i.registerOperands.all namesRegister

/-- A load image has at most 256 bytes (70_reset_and_hazards.md R191). -/
def imageFits (image : List Byte) : Bool := decide (image.length ≤ Config.memSize)

end Sys2Proof
end

