-- ==== Sys2Proof/Decode.lean ====
section
/-! DEFINITION. The encoding (spec 30_encoding.md): the fields of the opcode byte, the formats, the default opcode map,
the decoder, the encoder, and the decoding of a table word. Decoder and encoder take the opcode map as an argument,
because `OPCODE_MAP` is a parameter of the hardware (00_scope.md R7); `opcodeMap` is the one the machine runs with. -/

namespace Sys2Proof

/-! ## Fields of the opcode byte (30_encoding.md R61) -/

/-- `N`, bits 7..6: the operand count. -/
def opcodeN (ir : Byte) : BitVec 2 := ir.extractLsb' 6 2

/-- `ALU`, bit 5: the instruction is routed to the ALU. -/
def opcodeAlu (ir : Byte) : Bool := ir.getLsbD 5

/-- `P`, bit 4: the handler writes pc itself. -/
def opcodeP (ir : Byte) : Bool := ir.getLsbD 4

/-- `ID`, bits 3..0: no meaning but to tell instructions apart. -/
def opcodeId (ir : Byte) : BitVec 4 := ir.extractLsb' 0 4

/-! ## What the source fixes of each instruction's opcode byte (30_encoding.md R66, R67) -/

/-- The operand count of an instruction: formats N0, N1 and N2 (30_encoding.md R62 to R64). -/
def Mnemonic.operandCount : Mnemonic → Nat
  | .hlt | .ret => 0
  | .push | .pop | .prn | .call | .jmp | .jeq | .jne => 1
  | .ldi | .add | .mul | .cmp | .and | .or | .xor => 2

/-- The length in bytes, `1 + operand_count` (30_encoding.md R60). -/
def Mnemonic.length (m : Mnemonic) : Nat := 1 + m.operandCount

/-- The six instructions of the ALU (30_encoding.md R67). -/
def Mnemonic.isAlu : Mnemonic → Bool
  | .add | .mul | .cmp | .and | .or | .xor => true
  | .hlt | .ret | .push | .pop | .prn | .call | .jmp | .jeq | .jne | .ldi => false

/-- The five instructions whose handler writes pc (30_encoding.md R67). -/
def Mnemonic.setsPc : Mnemonic → Bool
  | .call | .ret | .jmp | .jeq | .jne => true
  | .hlt | .push | .pop | .prn | .ldi | .add | .mul | .cmp | .and | .or | .xor => false

/-- An opcode map the hardware may have: distinct bytes, with the three bit properties the source fixes
(00_scope.md R7, 30_encoding.md R67). -/
abbrev OpcodeMap.Legal (map : OpcodeMap) : Prop :=
  (Mnemonic.all.map map).Nodup ∧
    ∀ m ∈ Mnemonic.all,
      (opcodeN (map m)).toNat = m.operandCount ∧ opcodeAlu (map m) = m.isAlu ∧ opcodeP (map m) = m.setsPc

/-- The default `OPCODE_MAP` (30_encoding.md R66). PRESUMED: the spec takes the byte values from the LS-8 family, its
source gives none (log 1). -/
def defaultOpcodeMap : OpcodeMap
  | .hlt => 0x01
  | .ret => 0x11
  | .push => 0x45
  | .pop => 0x46
  | .prn => 0x47
  | .call => 0x50
  | .jmp => 0x54
  | .jeq => 0x55
  | .jne => 0x56
  | .ldi => 0x82
  | .add => 0xA0
  | .mul => 0xA2
  | .cmp => 0xA7
  | .and => 0xA8
  | .or => 0xAA
  | .xor => 0xAB

/-- The opcode map the machine runs with (00_scope.md R7, log 1). -/
def opcodeMap : OpcodeMap := defaultOpcodeMap

/-! ## Decoder -/

/-- Why a decoder gives no instruction. -/
inductive DecodeError where
  /-- The opcode byte is none of the 16 of the map (30_encoding.md R70). -/
  | unknownOpcode (byte : Byte)
  /-- Fewer than the three bytes that every fetch reads were given (30_encoding.md R60); the machine's own fetch never
  gives fewer. -/
  | tooFewBytes
  deriving DecidableEq, Repr

/-- The instruction of a mnemonic with operand bytes A and B; the ones it does not use are dropped (30_encoding.md R73). -/
def Mnemonic.build (a b : Byte) : Mnemonic → Instr
  | .hlt => .hlt
  | .ret => .ret
  | .push => .push a
  | .pop => .pop a
  | .prn => .prn a
  | .call => .call a
  | .jmp => .jmp a
  | .jeq => .jeq a
  | .jne => .jne a
  | .ldi => .ldi a b
  | .add => .add a b
  | .mul => .mul a b
  | .cmp => .cmp a b
  | .and => .and a b
  | .or => .or a b
  | .xor => .xor a b

/-- The mnemonic an opcode byte stands for: "Decoding matches all 8 bits of byte 0" (30_encoding.md R66). -/
def OpcodeMap.lookup (map : OpcodeMap) (ir : Byte) : Option Mnemonic :=
  Mnemonic.all.find? fun m => map m == ir

/-- Decode the three bytes of a fetch, IR, A and B (40_fetch_decode_execute.md R93). -/
def decode (map : OpcodeMap) (ir a b : Byte) : Except DecodeError Instr :=
  match map.lookup ir with
  | some m => .ok (m.build a b)
  | none => .error (.unknownOpcode ir)

/-- Decode the instruction at the head of a byte sequence, at least three bytes of which are given, as every fetch
reads three (40_fetch_decode_execute.md R91). -/
def decodeBytes (map : OpcodeMap) : List Byte → Except DecodeError Instr
  | ir :: a :: b :: _ => decode map ir a b
  | _ => .error .tooFewBytes

/-! ## Encoder -/

/-- The bytes of an instruction in address order: opcode, operand A, operand B (30_encoding.md R60, R62 to R64). -/
def encode (map : OpcodeMap) (i : Instr) : List Byte := map i.mnemonic :: i.operands

/-! ## Table words -/

/-- The three bytes, in address order, of an instruction whose bits are `w`, numbered as spec/opcode_table.json numbers
them: bit 0 is the least significant bit of the first byte. Bits from `nbits` up are zero. -/
def tableBytes (nbits w : Nat) : Byte × Byte × Byte :=
  let v := w % 2 ^ nbits
  (BitVec.ofNat 8 v, BitVec.ofNat 8 (v / 256), BitVec.ofNat 8 (v / 65536))

/-- The instruction the decoder reads from a table word. -/
def decodeTableWord (nbits w : Nat) : Option Instr :=
  let (ir, a, b) := tableBytes nbits w
  (decode opcodeMap ir a b).toOption

end Sys2Proof
end

