-- ==== Sys2Proof/Machine/State.lean ====
section
/-! DEFINITION. The state of the core as plain data (spec 10_state.md R20), its faults (60_exceptions.md R170), the
refusals, and the state after reset (70_reset_and_hazards.md R190). -/

namespace Sys2Proof.Machine

/-- Where an out-of-bounds index pointed (60_exceptions.md R170). -/
inductive Space where
  | memory
  | register
  deriving DecidableEq, Repr

/-- The fault kinds of the core (60_exceptions.md R170). A step that raises one writes it to the state's fault record
and answers the next state; a step from a state that holds one answers the host's `fault` with it (log 2). -/
inductive Fault where
  /-- Raised by decoding, for an opcode byte that is none of the 16 (60_exceptions.md R171): the address of the byte
  and the byte. Safe: the spec names this fault. -/
  | unknownOpcode (addr byte : Byte)
  /-- Raised by the fetch, by a register operand above 7, by a stack push or pop at the end of the address space, and
  by an advance past 255 (60_exceptions.md R172). Safe: the spec names this fault. -/
  | outOfBoundsAccess (space : Space) (index : Int)
  /-- Raised by nothing: decoding rejects every byte that is no ALU opcode before the ALU sees it
  (60_exceptions.md R173, 41_alu.md R117). Safe: the spec calls it unreachable. -/
  | unsupportedALUOperation (addr byte : Byte)
  deriving DecidableEq, Repr

/-- Why the model gives no meaning. -/
inductive Refusal where
  /-- Raised by an arm of exec whose instruction has no meaning yet; no arm is so now. Safe: nothing can be proved of
  the instruction. -/
  | notModelled (mnemonic : String)
  deriving DecidableEq, Repr

/-- Memory as the list of its cells that do not hold 0, addresses strictly rising (20_memory.md R40; log 11). -/
abbrev Memory := List Host.Cell

/-- The architectural state, field for field that of 10_state.md R20. -/
structure State where
  /-- General registers r0 to r7 (10_state.md R21). -/
  regs : Vector Byte Config.numRegs
  /-- Program counter: the address of the next opcode byte (10_state.md R27). -/
  pc : Byte
  /-- Stack pointer: the address of the last byte pushed; a register of its own (10_state.md R26). -/
  sp : Byte
  /-- Condition flags: E bit 0, L bit 1, G bit 2 (10_state.md R28). -/
  fl : Byte
  /-- Memory (20_memory.md R40). -/
  mem : Memory
  /-- Halt state: false after HLT (10_state.md R29). -/
  running : Bool
  /-- Fault record (10_state.md R30). -/
  fault : Option Fault
  /-- Output sink contents, oldest first (10_state.md R32). -/
  out : List Byte
  deriving DecidableEq, Repr

/-- The machine right after reset with no image loaded (70_reset_and_hazards.md R190): r0 to r6 are 0, r7 is 244. -/
def State.reset : State where
  regs := ⟨#[0, 0, 0, 0, 0, 0, 0, Config.spReset], rfl⟩
  pc := Config.entryPoint
  sp := Config.spReset
  fl := Config.flagsReset
  mem := []
  running := true
  fault := none
  out := []

end Sys2Proof.Machine
end

