-- ==== Sys2Proof/Machine/Ops.lean ====
section
/-! DEFINITION. The named operations every meaning is built from: memory, registers, computed addresses, the stack, the
output sink, the sequential advance, and taking a fault. -/

namespace Sys2Proof.Machine

/-! ## Memory (spec 20_memory.md R40 to R42) -/

/-- What a cell that is not listed reads as: memory is zero at reset (20_memory.md R40). -/
def Memory.unlisted : Byte := 0

/-- The byte in cell `addr`. -/
def Memory.read (addr : Nat) : Memory → Byte
  | [] => Memory.unlisted
  | (a, v) :: rest => if addr = a then v else Memory.read addr rest

/-- Put a cell in front of cells of higher addresses, unless it holds what an unlisted cell reads as. -/
def Memory.cons (addr : Nat) (v : Byte) (rest : Memory) : Memory :=
  if v = Memory.unlisted then rest else (addr, v) :: rest

/-- Store `v` in cell `addr`, keeping the canonical form. -/
def Memory.write (addr : Nat) (v : Byte) : Memory → Memory
  | [] => Memory.cons addr v []
  | (a, w) :: rest =>
    if addr < a then Memory.cons addr v ((a, w) :: rest)
    else if addr = a then Memory.cons addr v rest
    else (a, w) :: Memory.write addr v rest

/-- The canonical form from address `lo` up: addresses strictly rising and inside memory, no cell listed that holds
what an unlisted one reads as. -/
def Memory.wfFrom (lo : Nat) : Memory → Bool
  | [] => true
  | (a, v) :: rest =>
    decide (lo ≤ a) && decide (a < Config.memSize) && decide (v ≠ Memory.unlisted) && Memory.wfFrom (a + 1) rest

/-- The canonical form of a memory (log 11). -/
def Memory.wf (m : Memory) : Bool := Memory.wfFrom 0 m

/-- `MemRead(addr, 1)` for an address, which a byte always is (20_memory.md R41). -/
def State.memRead (s : State) (addr : Byte) : Byte := s.mem.read addr.toNat

/-- `MemWrite(addr, 1, v)` for an address, which a byte always is (20_memory.md R42). -/
def State.memWrite (s : State) (addr v : Byte) : State := { s with mem := s.mem.write addr.toNat v }

/-! ## Registers and the output sink -/

/-- `x[r]` (10_state.md R21). No register is hardwired. -/
def State.reg (s : State) (r : Fin Config.numRegs) : Byte := s.regs[r]

/-- `x[r] <- v` (10_state.md R21). -/
def State.setReg (s : State) (r : Fin Config.numRegs) (v : Byte) : State := { s with regs := s.regs.set r v }

/-- `pc <- target` (10_state.md R27). -/
def State.setPc (s : State) (target : Byte) : State := { s with pc := target }

/-- `sp <- v` (10_state.md R26). -/
def State.setSp (s : State) (v : Byte) : State := { s with sp := v }

/-- `fl <- v`: the whole byte, overwritten and not merged (10_state.md R28). -/
def State.setFl (s : State) (v : Byte) : State := { s with fl := v }

/-- `running <- false` (10_state.md R29). -/
def State.halt (s : State) : State := { s with running := false }

/-- `Emit(v)`: append a byte to the output sink, which always accepts it (10_state.md R32; log 6). -/
def State.emit (s : State) (v : Byte) : State := { s with out := s.out ++ [v] }

/-! ## Faults (spec 60_exceptions.md R175) -/

/-- The numeric code of a fault kind (60_exceptions.md R170). It is a label: no instruction can read it. -/
def Fault.code : Fault → Nat
  | .unknownOpcode _ _ => 1
  | .outOfBoundsAccess _ _ => 2
  | .unsupportedALUOperation _ _ => 3

/-- The state after a step that raises: the fault record is written, and nothing else changes. -/
def State.withFault (s : State) (f : Fault) : State := { s with fault := some f }

/-- `raise f`, where `s` is the state before the step: "exactly one change: `fault <- some(F)`" (60_exceptions.md R175).
Control goes nowhere and there is no return from a fault (R177, R178). DESIGN CHOICE: the host's outcome is `next`, so
that the record is written (log 2). -/
def raise (f : Fault) (s : State) : Host.Outcome State Fault Refusal := .next (s.withFault f)

/-- An exact integer is an address if it is in 0..255 (20_memory.md R43). -/
def isAddress : Int → Bool
  | .ofNat n => Nat.blt n Config.memSize
  | .negSucc _ => false

/-- Go on with a computed address if it is one, else raise OutOfBoundsAccess(memory, x). The computed addresses are
pc + 1, pc + 2, the next pc, sp - 1 and sp + 1 (20_memory.md R43; log 13). -/
def withAddress (x : Int) (s : State) (k : Byte → Host.Outcome State Fault Refusal) :
    Host.Outcome State Fault Refusal :=
  if isAddress x then k (BitVec.ofNat 8 x.toNat) else raise (.outOfBoundsAccess .memory x) s

/-! ## The stack (spec 20_memory.md R44, 42_register_and_stack.md) -/

/-- Go on with the address a push writes, `sp - 1`, which is below 0 when sp is 0 (42_register_and_stack.md R131). -/
def withPushSlot (s : State) (k : Byte → Host.Outcome State Fault Refusal) : Host.Outcome State Fault Refusal :=
  withAddress ((s.sp.toNat : Int) - 1) s k

/-- Go on with the value sp has after a pop, `sp + 1`, which is above 255 when sp is 255 (42_register_and_stack.md R132). -/
def withPoppedSp (s : State) (k : Byte → Host.Outcome State Fault Refusal) : Host.Outcome State Fault Refusal :=
  withAddress ((s.sp.toNat : Int) + 1) s k

/-! ## Advance (spec 40_fetch_decode_execute.md R95, R96) -/

/-- Go on with the address of the byte after the instruction `m` at pc, `pc + 1 + operand_count`. -/
def withNextPc (m : Mnemonic) (s : State) (k : Byte → Host.Outcome State Fault Refusal) :
    Host.Outcome State Fault Refusal :=
  withAddress ((s.pc.toNat : Int) + m.length) s k

/-- The sequential advance and the commit: `s` is the state before the step and `pending` holds the handler's writes,
which are committed only if the advance does not raise (40_fetch_decode_execute.md R95, R96). -/
def advance (m : Mnemonic) (s pending : State) : Host.Outcome State Fault Refusal :=
  withNextPc m s fun next => .next (pending.setPc next)

end Sys2Proof.Machine
end

