-- ==== Sys2Proof/Machine/Flags.lean ====
section
/-! DEFINITION. The flags register (spec 10_state.md R28): what CMP writes to it and what JEQ and JNE read of it. ADD,
MUL, AND, OR and XOR compute no flag (41_alu.md R110). -/

namespace Sys2Proof.Machine

/-- E, Equal: bit 0 (10_state.md R28). -/
def flagE : Byte := 0b001

/-- L, Less-than: bit 1 (10_state.md R28; 90_conflicts.md C9). -/
def flagL : Byte := 0b010

/-- G, Greater-than: bit 2 (10_state.md R28; 90_conflicts.md C9). -/
def flagG : Byte := 0b100

/-- The whole flags byte CMP writes: unsigned comparison, tested with `>`, then `<`, then equal (41_alu.md R116; log 14). -/
def compareFlags (x y : Byte) : Byte :=
  if x.toNat > y.toNat then flagG else if x.toNat < y.toNat then flagL else flagE

/-- What JEQ and JNE test: bit 0 of fl and no other (43_control_transfer.md R143, R144; 90_conflicts.md C5). -/
def equalSet (fl : Byte) : Bool := fl.getLsbD 0

end Sys2Proof.Machine
end

