-- ==== Sys2Proof/Machine/Operands.lean ====
section
/-! DEFINITION. The operand forms (spec 30_encoding.md R65): a register index used whole, checked only when the register
is accessed, and an immediate byte used as it is. There is no other form: no instruction has an address operand. -/

namespace Sys2Proof.Machine

/-- Access the register a register-index operand names: 0..7 name r0..r7, and any other index raises
OutOfBoundsAccess(register, i). The index is not reduced modulo 8 (30_encoding.md R65, 60_exceptions.md R172). -/
def withRegister (i : Byte) (s : State) (k : Fin Config.numRegs → Host.Outcome State Fault Refusal) :
    Host.Outcome State Fault Refusal :=
  if h : i.toNat < Config.numRegs then k ⟨i.toNat, h⟩ else raise (.outOfBoundsAccess .register i.toNat) s

/-- Access the two registers of an ALU instruction, A checked before B (41_alu.md R110). -/
def withRegisters (a b : Byte) (s : State)
    (k : Fin Config.numRegs → Fin Config.numRegs → Host.Outcome State Fault Refusal) :
    Host.Outcome State Fault Refusal :=
  withRegister a s fun ra => withRegister b s fun rb => k ra rb

/-- An immediate operand is the byte itself: "it is already register width" (30_encoding.md R65). -/
def immediate (b : Byte) : Byte := b

end Sys2Proof.Machine
end

