-- ==== Sys2Proof/Machine/Alu.lean ====
section
/-! DEFINITION. The ALU instructions ADD, MUL, AND, OR, XOR and CMP (spec 41_alu.md). -/

namespace Sys2Proof.Machine

/-- The common shape of the five that write a register: read x[A] and x[B], write `f x[A] x[B]` to x[A], advance
(41_alu.md R110). -/
def aluWrite (m : Mnemonic) (f : Byte → Byte → Byte) (a b : Byte) (s : State) : Host.Outcome State Fault Refusal :=
  withRegisters a b s fun ra rb => advance m s (s.setReg ra (f (s.reg ra) (s.reg rb)))

/-- The sum modulo 256 (41_alu.md R111; log 14). -/
def sumByte (x y : Byte) : Byte := BitVec.ofNat 8 ((x.toNat + y.toNat) % 256)

/-- The product modulo 256 (41_alu.md R112; log 14). -/
def productByte (x y : Byte) : Byte := BitVec.ofNat 8 ((x.toNat * y.toNat) % 256)

/-- ADD: `x[A] <- (x[A] + x[B]) mod 256` (41_alu.md R111). -/
def execAdd (a b : Byte) (s : State) : Host.Outcome State Fault Refusal := aluWrite .add sumByte a b s

/-- MUL: `x[A] <- (x[A] * x[B]) mod 256` (41_alu.md R112). -/
def execMul (a b : Byte) (s : State) : Host.Outcome State Fault Refusal := aluWrite .mul productByte a b s

/-- AND: `x[A] <- x[A] & x[B]` (41_alu.md R113). -/
def execAnd (a b : Byte) (s : State) : Host.Outcome State Fault Refusal := aluWrite .and (fun x y => x &&& y) a b s

/-- OR: `x[A] <- x[A] | x[B]` (41_alu.md R114). -/
def execOr (a b : Byte) (s : State) : Host.Outcome State Fault Refusal := aluWrite .or (fun x y => x ||| y) a b s

/-- XOR: `x[A] <- x[A] ^ x[B]` (41_alu.md R115). -/
def execXor (a b : Byte) (s : State) : Host.Outcome State Fault Refusal := aluWrite .xor (fun x y => x ^^^ y) a b s

/-- CMP: write fl from the order of x[A] and x[B]; no register is written (41_alu.md R116). It advances by 3 once
(40_fetch_decode_execute.md R98, 90_conflicts.md C2). -/
def execCmp (a b : Byte) (s : State) : Host.Outcome State Fault Refusal :=
  withRegisters a b s fun ra rb => advance .cmp s (s.setFl (compareFlags (s.reg ra) (s.reg rb)))

end Sys2Proof.Machine
end

