-- ==== Sys2Proof/Machine/Control.lean ====
section
/-! DEFINITION. The control transfer instructions CALL, RET, JMP, JEQ and JNE (spec 43_control_transfer.md). Each writes
pc itself; a target is any byte and is not checked (R145). Within a step pc is at most 253 (40_fetch_decode_execute.md
R92), so pc + 2 always is an address; applied outside a step to a pc of 254 or 255, CALL and a jump not taken raise
OutOfBoundsAccess(memory, pc + 2) rather than wrap (log 7). -/

namespace Sys2Proof.Machine

/-- CALL: `sp <- sp - 1; MemWrite(sp, 1, pc + 2); pc <- x[A]` (43_control_transfer.md R140). -/
def execCall (a : Byte) (s : State) : Host.Outcome State Fault Refusal :=
  withRegister a s fun r => withPushSlot s fun slot => withNextPc .call s fun ret =>
    .next (((s.setSp slot).memWrite slot ret).setPc (s.reg r))

/-- RET: `pc <- MemRead(sp, 1); sp <- sp + 1` (43_control_transfer.md R141). -/
def execRet (s : State) : Host.Outcome State Fault Refusal :=
  withPoppedSp s fun sp' => .next ((s.setPc (s.memRead s.sp)).setSp sp')

/-- A jump to the address in the register of operand A (43_control_transfer.md R142). -/
def jumpTo (a : Byte) (s : State) : Host.Outcome State Fault Refusal :=
  withRegister a s fun r => .next (s.setPc (s.reg r))

/-- JMP: `pc <- x[A]` (43_control_transfer.md R142; 90_conflicts.md C4). -/
def execJmp (a : Byte) (s : State) : Host.Outcome State Fault Refusal := jumpTo a s

/-- JEQ: jump if E is set, else pc + 2; the register is accessed only when the jump is taken
(43_control_transfer.md R143). -/
def execJeq (a : Byte) (s : State) : Host.Outcome State Fault Refusal :=
  if equalSet s.fl then jumpTo a s else advance .jeq s s

/-- JNE: jump if E is clear, else pc + 2; the register is accessed only when the jump is taken
(43_control_transfer.md R144). -/
def execJne (a : Byte) (s : State) : Host.Outcome State Fault Refusal :=
  if equalSet s.fl then advance .jne s s else jumpTo a s

end Sys2Proof.Machine
end

