-- ==== Sys2Proof/Machine/LoadStack.lean ====
section
/-! DEFINITION. The register load and stack instructions LDI, PUSH and POP (spec 42_register_and_stack.md). -/

namespace Sys2Proof.Machine

/-- LDI: `x[A] <- B` (42_register_and_stack.md R130). -/
def execLdi (a imm : Byte) (s : State) : Host.Outcome State Fault Refusal :=
  withRegister a s fun r => advance .ldi s (s.setReg r (immediate imm))

/-- PUSH: `sp <- sp - 1; MemWrite(sp, 1, x[A])` (42_register_and_stack.md R131). PUSH r7 pushes r7, not sp. -/
def execPush (a : Byte) (s : State) : Host.Outcome State Fault Refusal :=
  withRegister a s fun r => withPushSlot s fun slot => advance .push s ((s.setSp slot).memWrite slot (s.reg r))

/-- POP: `x[A] <- MemRead(sp, 1); sp <- sp + 1` (42_register_and_stack.md R132). The popped cell keeps its value. -/
def execPop (a : Byte) (s : State) : Host.Outcome State Fault Refusal :=
  withRegister a s fun r => withPoppedSp s fun sp' => advance .pop s ((s.setReg r (s.memRead s.sp)).setSp sp')

end Sys2Proof.Machine
end

