-- ==== Sys2Proof/Machine/System.lean ====
section
/-! DEFINITION. The halt and output instructions HLT and PRN (spec 44_system_and_output.md). -/

namespace Sys2Proof.Machine

/-- HLT: `running <- false`, then the advance by 1 (44_system_and_output.md R160). -/
def execHlt (s : State) : Host.Outcome State Fault Refusal := advance .hlt s s.halt

/-- PRN: `Emit(x[A])` (44_system_and_output.md R161). -/
def execPrn (a : Byte) (s : State) : Host.Outcome State Fault Refusal :=
  withRegister a s fun r => advance .prn s (s.emit (s.reg r))

end Sys2Proof.Machine
end

