-- ==== Sys2Proof/Machine/Fetch.lean ====
section
/-! DEFINITION. Fetch and decode (spec 40_fetch_decode_execute.md R91 to R93). -/

namespace Sys2Proof.Machine

/-- Fetch: read the opcode byte at pc and the two bytes after it, always all three, before anything is decoded. An
operand address past 255 raises OutOfBoundsAccess(memory, 256), whichever instruction stands at pc
(40_fetch_decode_execute.md R91, R92; 90_conflicts.md C6). -/
def fetch (s : State) (k : Byte → Byte → Byte → Host.Outcome State Fault Refusal) : Host.Outcome State Fault Refusal :=
  withAddress ((s.pc.toNat : Int) + 1) s fun pcA => withAddress ((s.pc.toNat : Int) + 2) s fun pcB =>
    k (s.memRead s.pc) (s.memRead pcA) (s.memRead pcB)

/-- Fetch and decode, and go on with the instruction; an opcode byte the map does not hold raises
UnknownOpcode(pc, IR) (40_fetch_decode_execute.md R93). -/
def fetchDecode (map : OpcodeMap) (s : State) (k : Instr → Host.Outcome State Fault Refusal) :
    Host.Outcome State Fault Refusal :=
  fetch s fun ir a b =>
    match decode map ir a b with
    | .ok i => k i
    | .error _ => raise (.unknownOpcode s.pc ir) s

end Sys2Proof.Machine
end

