-- ==== Sys2Proof/Machine/Step.lean ====
section
/-! DEFINITION. One step of the core (spec 40_fetch_decode_execute.md R90 to R99) under any opcode map, the machine's own
step, and how a table word is placed where the next step fetches. -/

namespace Sys2Proof.Machine

/-- One step under the opcode map `map`. A recorded fault is answered as the host's `fault`, and a halted core stays as
it is (40_fetch_decode_execute.md R90; log 2, log 3). Otherwise fetch, decode and execute; each meaning holds its own
advance (R91 to R96). -/
def stepWith (map : OpcodeMap) (s : State) : Host.Outcome State Fault Refusal :=
  match s.fault with
  | some f => .fault f
  | none => if s.running then fetchDecode map s fun i => exec i s else .next s

/-- One step of the machine, with the opcode map it runs with (log 1). -/
def step (s : State) : Host.Outcome State Fault Refusal := stepWith opcodeMap s

/-- `s` with a table word stored at pc, pc + 1 and pc + 2, where the next step fetches, and live, so that the step
fetches. At a pc of 254 or 255 no instruction can be fetched (40_fetch_decode_execute.md R92). Log 8 says how a program
comes to run. -/
def State.withFetchWord (s : State) (nbits w : Nat) : State :=
  let (ir, a, b) := tableBytes nbits w
  let live := { s with running := true, fault := none }
  ((live.memWrite live.pc ir).memWrite (live.pc + 1) a).memWrite (live.pc + 2) b

end Sys2Proof.Machine
end

