-- ==== Sys2Proof/Machine/Ports.lean ====
section
/-! DEFINITION. The outward interfaces of the core (spec 10_state.md R32, R33): the load port, the step port with its
outcomes, and the run port under fuel. The output sink is the state's field `out`. -/

namespace Sys2Proof.Machine

/-! ## Load port (spec 70_reset_and_hazards.md R190, R191) -/

/-- Why the loader builds no machine: a load error of the loader, not a core fault (70_reset_and_hazards.md R191). -/
inductive LoadError where
  /-- The image has more than 256 bytes. -/
  | imageTooLong (length : Nat)
  deriving DecidableEq, Repr

/-- The memory that holds `image` from address `addr` up and 0 elsewhere. -/
def Memory.ofImage (addr : Nat) : List Byte → Memory
  | [] => []
  | v :: rest => Memory.cons addr v (Memory.ofImage (addr + 1) rest)

/-- `load_program(image)`: the reset state with the image at address 0; a longer image is refused
(70_reset_and_hazards.md R191). -/
def loadProgram (image : List Byte) : Except LoadError State :=
  if imageFits image then .ok { State.reset with mem := Memory.ofImage 0 image }
  else .error (.imageTooLong image.length)

/-! ## Step port (spec 10_state.md R33, 40_fetch_decode_execute.md R99) -/

/-- The outcome of a step (10_state.md R33). -/
inductive StepOutcome where
  /-- An instruction executed. -/
  | running
  /-- This step ran HLT, or the core was already halted. -/
  | halted
  /-- This step or an earlier one raised the fault. -/
  | faulted (f : Fault)
  deriving DecidableEq, Repr

/-- What a state says of the run (10_state.md R33; the fault record is asked first, 40_fetch_decode_execute.md R90). -/
def State.outcome (s : State) : StepOutcome :=
  match s.fault with
  | some f => .faulted f
  | none => if s.running then .running else .halted

/-- `step(state)`: the next state and the outcome (10_state.md R32, R33), under an opcode map. A state that holds a
fault is returned unchanged with `faulted` (40_fetch_decode_execute.md R90). -/
def stepPortWith (map : OpcodeMap) (s : State) : Except Refusal (State × StepOutcome) :=
  match stepWith map s with
  | .next t => .ok (t, t.outcome)
  | .fault f => .ok (s, .faulted f)
  | .refused r => .error r

/-! ## Run port (spec 40_fetch_decode_execute.md R100, R101) -/

/-- How a run under fuel ended. -/
inductive RunEnd where
  /-- The run port's `Halted` (10_state.md R33). -/
  | halted
  /-- The run port's `Faulted(F)` (10_state.md R33). -/
  | faulted (f : Fault)
  /-- The fuel ran out: the model's own outcome, "not a RunOutcome of the hardware" (40_fetch_decode_execute.md R100;
  log 10). -/
  | outOfFuel
  deriving DecidableEq, Repr

/-- `run(state)` under an opcode map and at most `fuel` steps: repeat the step until its outcome is not `running`
(40_fetch_decode_execute.md R100). -/
def runWith (map : OpcodeMap) : Nat → State → Except Refusal (State × RunEnd)
  | 0, s => .ok (s, .outOfFuel)
  | fuel + 1, s =>
    match stepPortWith map s with
    | .ok (t, .running) => runWith map fuel t
    | .ok (t, .halted) => .ok (t, .halted)
    | .ok (t, .faulted f) => .ok (t, .faulted f)
    | .error r => .error r

end Sys2Proof.Machine
end

