-- ==== Sys2Proof/Safety.lean ====
section
/-! DEFINITION. The terms the claims are stated in: live states, the faults of 60_exceptions.md R172, the state after a
fault, the one fault a step reports (R176), what one store leaves, and the invariant of the machine. -/

namespace Sys2Proof.Safety

open Sys2Proof.Machine

/-- The core runs: not halted and no fault recorded, so that a step fetches (10_state.md R30). -/
abbrev Live (s : State) : Prop := s.running = true ∧ s.fault = none

/-- `OutOfBoundsAccess(register, i)` (60_exceptions.md R172). -/
def registerFault (i : Byte) : Fault := .outOfBoundsAccess .register i.toNat

/-- `OutOfBoundsAccess(memory, x)` (60_exceptions.md R172). -/
def memoryFault (x : Int) : Fault := .outOfBoundsAccess .memory x

/-- The state before a step with the fault record set and every other field as it was (60_exceptions.md R175). -/
def faultedState (s : State) (f : Fault) : State := { s with fault := some f }

/-- The step fetches a defined instruction: pc is at most 253 and the three bytes there decode to `i`
(40_fetch_decode_execute.md R91 to R93). -/
abbrev Fetches (map : OpcodeMap) (s : State) (i : Instr) : Prop :=
  s.pc.toNat ≤ 253 ∧
    decode map (s.mem.read s.pc.toNat) (s.mem.read (s.pc.toNat + 1)) (s.mem.read (s.pc.toNat + 2)) = .ok i

/-- The register indices an instruction accesses, in the order they are checked; JEQ and JNE access theirs only when
the jump is taken (10_state.md R22, 60_exceptions.md R174). -/
def accessedRegisters (i : Instr) (fl : Byte) : List Byte :=
  match i with
  | .hlt | .ret => []
  | .jeq a => if fl.getLsbD 0 then [a] else []
  | .jne a => if fl.getLsbD 0 then [] else [a]
  | .push a | .pop a | .prn a | .call a | .jmp a | .ldi a _ => [a]
  | .add a b | .mul a b | .cmp a b | .and a b | .or a b | .xor a b => [a, b]

/-- The numbers of the registers an instruction writes (10_state.md R22). -/
def writtenRegisters : Instr → List Nat
  | .ldi a _ | .pop a | .add a _ | .mul a _ | .and a _ | .or a _ | .xor a _ => [a.toNat]
  | .hlt | .ret | .push _ | .prn _ | .call _ | .jmp _ | .jeq _ | .jne _ | .cmp _ _ => []

/-- The stack check of an instruction: `sp = 0` for PUSH and CALL, `sp = 255` for POP and RET (60_exceptions.md R176). -/
def stackFault (i : Instr) (s : State) : Option Fault :=
  match i with
  | .push _ | .call _ => if s.sp.toNat = 0 then some (memoryFault (-1)) else none
  | .pop _ | .ret => if s.sp.toNat = 255 then some (memoryFault 256) else none
  | .hlt | .prn _ | .jmp _ | .jeq _ | .jne _ | .ldi _ _ | .add _ _ | .mul _ _ | .cmp _ _ | .and _ _ | .or _ _
  | .xor _ _ => none

/-- The advance check of an instruction that does not write pc itself (40_fetch_decode_execute.md R96). -/
def advanceFault (i : Instr) (s : State) : Option Fault :=
  if i.mnemonic.setsPc = false ∧ 255 < s.pc.toNat + i.mnemonic.length then
    some (memoryFault (s.pc.toNat + i.mnemonic.length : Nat))
  else none

/-- The first failing check of a step from a live state, in the order of 60_exceptions.md R176: fetch bounds, decode,
register A, register B, stack bounds, sequential advance; none if every check passes. -/
def firstFault (map : OpcodeMap) (s : State) : Option Fault :=
  if 253 < s.pc.toNat then some (memoryFault 256)
  else
    match decode map (s.mem.read s.pc.toNat) (s.mem.read (s.pc.toNat + 1)) (s.mem.read (s.pc.toNat + 2)) with
    | .error _ => some (.unknownOpcode s.pc (s.mem.read s.pc.toNat))
    | .ok i =>
      (((accessedRegisters i s.fl).find? fun r => decide (7 < r.toNat)).map registerFault).or
        ((stackFault i s).or (advanceFault i s))

/-- Memory `m'` is `m` with the byte `v` stored at `addr`: every other cell reads as before (20_memory.md R42). -/
def Stored (m m' : Memory) (addr : Nat) (v : Byte) : Prop :=
  m'.read addr = v ∧ ∀ x, x ≠ addr → m'.read x = m.read x

/-- The values fl can hold: 0 at reset, and 1, 2 or 4 after a CMP (10_state.md R28). -/
abbrev FlagsLegal (fl : Byte) : Prop := fl = 0 ∨ fl = 1 ∨ fl = 2 ∨ fl = 4

/-- The invariant of the machine: memory has its canonical form, so equal memories are equal data and no cell outside
0..255 is listed, and fl holds a value that reset or a CMP leaves. -/
abbrev Inv (s : State) : Prop := s.mem.wf = true ∧ FlagsLegal s.fl

/-- `t` is reached from `s` by exactly `k` steps, each taken from a live state, so that every state before `t` is live
(40_fetch_decode_execute.md R100, R101). -/
def LiveSteps (map : OpcodeMap) : Nat → State → State → Prop
  | 0, s, t => s = t
  | k + 1, s, t => Live s ∧ ∃ u, stepWith map s = .next u ∧ LiveSteps map k u t

/-- Execute a list of instructions one after the other, each at the state the one before left. -/
def execAll : List Instr → State → Host.Outcome State Fault Refusal
  | [], s => .next s
  | i :: rest, s =>
    match exec i s with
    | .next t => execAll rest t
    | .fault f => .fault f
    | .refused r => .refused r

/-- The instruction moves the stack pointer (10_state.md R26). -/
def usesStack : Instr → Bool
  | .push _ | .pop _ | .call _ | .ret => true
  | .hlt | .prn _ | .jmp _ | .jeq _ | .jne _ | .ldi _ _ | .add _ _ | .mul _ _ | .cmp _ _ | .and _ _ | .or _ _
  | .xor _ _ => false

/-- The rule of an ALU instruction that writes a register (41_alu.md R110 to R115). `i a b` is the instruction, `opcode`
its byte under the default map, and `f` its result on the operands read as numbers. Encoding: format N2. Faults:
register A, then register B, then the advance at 253; each leaves every other field as it was. Otherwise x[A] holds the
result, pc moves on by 3, and nothing else changes: no flag, no cell, no other register. -/
def AluWriteRule (i : Byte → Byte → Instr) (opcode : Byte) (f : Nat → Nat → Nat) : Prop :=
  ∀ (a b : Byte) (s : State),
    encode defaultOpcodeMap (i a b) = [opcode, a, b] ∧
    (7 < a.toNat → exec (i a b) s = .next (faultedState s (registerFault a))) ∧
    (a.toNat < 8 → 7 < b.toNat → exec (i a b) s = .next (faultedState s (registerFault b))) ∧
    ∀ (ha : a.toNat < 8) (_ : b.toNat < 8),
      (s.pc.toNat = 253 → exec (i a b) s = .next (faultedState s (memoryFault 256))) ∧
      (s.pc.toNat ≤ 252 → exec (i a b) s = .next
        { s with
          regs := s.regs.set a.toNat (BitVec.ofNat 8 (f s.regs[a.toNat].toNat s.regs[b.toNat].toNat)) ha
          pc := BitVec.ofNat 8 (s.pc.toNat + 3) })

end Sys2Proof.Safety
end

