-- ==== Sys2Proof/Certificates/Slice0/Obligations.lean ====
section
/-! DEFINITION. The statements for the provers, one per obligation of OBLIGATIONS.json. "R<n>" is a numbered rule of
spec/, "log <n>" a row of notes/assumptions. `exec i s` is the meaning of one instruction, `stepWith map s` one step
under an opcode map, and `step` the step under the map the machine runs with. An instruction that raises a fault answers
a next state, the state before with the fault record set: that the host's outcome is `next` there is log 2. The bytes of
R66 and of its default opcode map are general knowledge of the family (log 1). -/

open Sys2Proof Sys2Proof.Machine Sys2Proof.Safety

/-! ## Reset and load -/

/-- R190: the fields of the state after reset, with nothing loaded: registers, pc, sp, flags, halt state, fault record
and output as the table of R190 gives them, and every cell 0. -/
def Obligations.ResetHoldsTheSpecValues : Prop :=
  loadProgram [] = .ok State.reset ∧
  (∀ r : Fin 8, State.reset.regs[r] = if r = 7 then 244 else 0) ∧
  State.reset.pc = 0 ∧ State.reset.sp = 244 ∧ State.reset.fl = 0 ∧ State.reset.running = true ∧
  State.reset.fault = none ∧ State.reset.out = [] ∧ ∀ addr, State.reset.mem.read addr = 0

/-- R190, R191: loading an image of at most 256 bytes gives the state of R190's table (fl = 0 is the spec's decision
D25, log 5) with the image at address 0 and 0 in every other cell; a longer image is refused; the first step from an
empty image raises UnknownOpcode(0, 0x00). That the loaded memory is canonical is a property of the model's own
representation (log 11). -/
def Obligations.LoadProgramBuildsTheResetState : Prop :=
  (∀ image : List Byte, image.length ≤ 256 → ∃ s, loadProgram image = .ok s ∧
    (∀ r : Fin 8, s.regs[r] = if r = 7 then 244 else 0) ∧
    s.pc = 0 ∧ s.sp = 244 ∧ s.fl = 0 ∧ s.running = true ∧ s.fault = none ∧ s.out = [] ∧
    (∀ (k : Nat) (h : k < image.length), s.mem.read k = image[k]) ∧
    (∀ k, image.length ≤ k → s.mem.read k = 0) ∧ s.mem.wf = true) ∧
  (∀ image : List Byte, 256 < image.length → loadProgram image = .error (.imageTooLong image.length)) ∧
  (∀ s, loadProgram [] = .ok s → step s = .next (faultedState s (.unknownOpcode 0 0x00)))

/-! ## Encoding -/

/-- Under every legal opcode map the decoder reads back every instruction from its encoding, with every operand byte at
every value, whatever two bytes stand behind it. -/
def Obligations.DecodeUndoesEncode : Prop :=
  ∀ (map : OpcodeMap), map.Legal → ∀ (i : Instr) (x y : Byte), decodeBytes map (encode map i ++ [x, y]) = .ok i

/-- No three bytes decode to an instruction other than the one whose encoding they begin with, under any opcode map. -/
def Obligations.EncodeUndoesDecode : Prop :=
  ∀ (map : OpcodeMap) (ir a b : Byte) (i : Instr), decode map ir a b = .ok i →
    encode map i = [ir, a, b].take i.mnemonic.length

/-- R68: the length of an instruction is 1 + IR[7:6], from its first byte alone. -/
def Obligations.LengthComesFromTheFirstByte : Prop :=
  ∀ (map : OpcodeMap), map.Legal → ∀ (ir a b : Byte) (i : Instr), decode map ir a b = .ok i →
    (encode map i).length = 1 + (opcodeN ir).toNat

/-- R73: a byte the operand count leaves out never changes what is decoded. -/
def Obligations.UnusedOperandBytesAreIgnored : Prop :=
  ∀ (map : OpcodeMap), map.Legal → ∀ (ir a b a' b' : Byte),
    ((opcodeN ir).toNat = 0 → decode map ir a b = decode map ir a' b') ∧
    ((opcodeN ir).toNat = 1 → decode map ir a b = decode map ir a b')

/-- R71: the bytes 0xC0 to 0xFF, whose operand count would be 3, are undefined under every legal map. -/
def Obligations.OperandCountThreeIsUndefined : Prop :=
  ∀ (map : OpcodeMap), map.Legal → ∀ (ir a b : Byte),
    ((opcodeN ir).toNat = 3 ↔ 0xC0 ≤ ir.toNat) ∧ (0xC0 ≤ ir.toNat → decode map ir a b = .error (.unknownOpcode ir))

/-- The default opcode map has the bytes of R66's table, is legal in the sense of R7 and R67, leaves 240 of the 256
bytes undefined, and is the one the machine runs with. The byte values are the spec's from general knowledge of the
family, and running with them is the model's choice (log 1). -/
def Obligations.DefaultOpcodeMapIsTheTable : Prop :=
  Mnemonic.all.map defaultOpcodeMap =
    [0x01, 0x11, 0x45, 0x46, 0x47, 0x50, 0x54, 0x55, 0x56, 0x82, 0xA0, 0xA2, 0xA7, 0xA8, 0xAA, 0xAB] ∧
  defaultOpcodeMap.Legal ∧ opcodeMap = defaultOpcodeMap ∧
  ((List.range 256).filter fun n => (defaultOpcodeMap.lookup (BitVec.ofNat 8 n)).isNone).length = 240

/-- A few words of 95_test_vectors.md, one at least of each family, decode to the instruction they stand for. -/
def Obligations.SpecWordsDecode : Prop :=
  decode defaultOpcodeMap 0b00000001 0 0 = .ok .hlt ∧
  decode defaultOpcodeMap 0b00010001 0 0 = .ok .ret ∧
  decode defaultOpcodeMap 0b01000101 0b00000111 0 = .ok (.push 7) ∧
  decode defaultOpcodeMap 0b01000111 0b00000100 0 = .ok (.prn 4) ∧
  decode defaultOpcodeMap 0b01010110 0b00000011 0 = .ok (.jne 3) ∧
  decode defaultOpcodeMap 0b10000010 0b00000011 0b11001000 = .ok (.ldi 3 200) ∧
  decode defaultOpcodeMap 0b10100000 0b00000000 0b00000001 = .ok (.add 0 1) ∧
  decode defaultOpcodeMap 0b10100111 0b00000010 0b00000010 = .ok (.cmp 2 2) ∧
  decode defaultOpcodeMap 0b10100001 0 0 = .error (.unknownOpcode 0xA1)

/-! ## The step -/

/-- R90: a step on a terminal state changes nothing. A recorded fault is answered with that fault, a halted state
without one with Halted; the host's outcomes `fault` and `next` beside them are the model's form (log 2, log 3). -/
def Obligations.TerminalStateStaysAsItIs : Prop :=
  ∀ (map : OpcodeMap) (s : State),
    (∀ f, s.fault = some f → stepPortWith map s = .ok (s, .faulted f) ∧ stepWith map s = .fault f) ∧
    (s.fault = none → s.running = false → stepPortWith map s = .ok (s, .halted) ∧ stepWith map s = .next s)

/-- R92: at a pc of 254 or 255 the step raises OutOfBoundsAccess(memory, 256) before it decodes, whatever byte stands
there and whatever the opcode map, and commits nothing; 253 is usable, as a HLT there shows. -/
def Obligations.FetchPastTheTopFaults : Prop :=
  ∀ (map : OpcodeMap) (s : State), Live s →
    (253 < s.pc.toNat → stepWith map s = .next (faultedState s (memoryFault 256))) ∧
    (map.Legal → s.pc.toNat = 253 → s.mem.read 253 = map .hlt →
      stepWith map s = .next { s with running := false, pc := 254 })

/-- A step of a live core whose three bytes at pc decode to an instruction is the meaning of that instruction at that
state, with nothing added: each meaning moves pc itself. The machine's `step` is this step under its opcode map. -/
def Obligations.StepRunsTheDecodedInstruction : Prop :=
  (∀ (map : OpcodeMap) (s : State) (i : Instr), Live s → Fetches map s i → stepWith map s = exec i s) ∧
  (∀ (s : State) (i : Instr), Live s → Fetches opcodeMap s i → step s = exec i s)

/-- R93: an opcode byte that no mnemonic has raises UnknownOpcode(pc, IR) and commits nothing, under every opcode map.
-/
def Obligations.UndefinedOpcodeFaults : Prop :=
  ∀ (map : OpcodeMap) (s : State), Live s → s.pc.toNat ≤ 253 → (∀ m, map m ≠ s.mem.read s.pc.toNat) →
    stepWith map s = .next (faultedState s (.unknownOpcode s.pc (s.mem.read s.pc.toNat)))

/-- R176, R172: the fault a step of a live core records is the first failing check of R176's order, with R172's
information; if every check passes it records none. No other fault is recorded, UnsupportedALUOperation among them. -/
def Obligations.StepReportsTheFirstFailingCheck : Prop :=
  ∀ (map : OpcodeMap) (s : State), Live s → ∃ t, stepWith map s = .next t ∧ t.fault = firstFault map s

/-- R175: a step that raises makes exactly one change, the fault record. -/
def Obligations.FaultCommitsNothing : Prop :=
  ∀ (map : OpcodeMap) (s t : State) (f : Fault), s.fault = none → stepWith map s = .next t → t.fault = some f →
    t = faultedState s f

/-- R96: after an instruction whose IR[4] is 0, pc has moved on by 1 + IR[7:6] without wrapping; where that passes 255
and no register or stack check failed before, the step raises OutOfBoundsAccess(memory, next). After one whose IR[4] is
1 there is no such advance: only the five instructions whose handler writes pc have that bit. -/
def Obligations.AdvanceFollowsTheOpcodeBits : Prop :=
  ∀ (map : OpcodeMap), map.Legal → ∀ (s t : State) (i : Instr), Live s → Fetches map s i → stepWith map s = .next t →
    let ir := s.mem.read s.pc.toNat
    let next := s.pc.toNat + 1 + (opcodeN ir).toNat
    (opcodeP ir = false →
      (t.fault = none → next ≤ 255 ∧ t.pc.toNat = next) ∧
      (255 < next → (∀ a ∈ accessedRegisters i s.fl, a.toNat < 8) → stackFault i s = none →
        t = faultedState s (memoryFault next))) ∧
    (opcodeP ir = true ↔ i = .ret ∨ ∃ a, i = .call a ∨ i = .jmp a ∨ i = .jeq a ∨ i = .jne a)

/-- R97: the new pc of every instruction that does not fault. -/
def Obligations.NetPcChangeOfEachInstruction : Prop :=
  ∀ (i : Instr) (s t : State), s.fault = none → exec i s = .next t → t.fault = none →
    t.pc.toNat = match i with
      | .hlt => s.pc.toNat + 1
      | .ret => (s.mem.read s.sp.toNat).toNat
      | .push _ | .pop _ | .prn _ => s.pc.toNat + 2
      | .call a | .jmp a => (s.regs[a.toNat]?.getD 0).toNat
      | .jeq a => if s.fl.getLsbD 0 then (s.regs[a.toNat]?.getD 0).toNat else s.pc.toNat + 2
      | .jne a => if s.fl.getLsbD 0 then s.pc.toNat + 2 else (s.regs[a.toNat]?.getD 0).toNat
      | .ldi _ _ | .add _ _ | .mul _ _ | .cmp _ _ | .and _ _ | .or _ _ | .xor _ _ => s.pc.toNat + 3

/-- R99: a step that raises returns Faulted(F) and sets the fault record to F; a step that executes HLT returns Halted;
any other step of a live core returns Running. -/
def Obligations.StepOutcomeIsRunningHaltedOrFaulted : Prop :=
  ∀ (map : OpcodeMap) (s : State), Live s →
    (∀ f, firstFault map s = some f → stepPortWith map s = .ok (faultedState s f, .faulted f)) ∧
    (firstFault map s = none → ∀ i, Fetches map s i → ∃ t, stepWith map s = .next t ∧
      stepPortWith map s = .ok (t, if i = .hlt then .halted else .running))

/-- R100, R101: a run under fuel from a live state repeats the step: the state t it ends in is reached by k steps, each
from a live state and k no more than the fuel. So t is the first terminal state of the run if it is terminal, and the
end is the outcome t has; if t is still live the run is out of fuel, after exactly as many steps as there was fuel (out
of fuel is the model's own outcome, log 10). More fuel does not change the end of a run that has ended. A run from a
terminal state that has fuel ends there at once, with the outcome that state has. -/
def Obligations.RunEndsAtTheFirstTerminalState : Prop :=
  ∀ (map : OpcodeMap) (n : Nat) (s : State),
    (Live s → ∃ t e k, runWith map n s = .ok (t, e) ∧ k ≤ n ∧ LiveSteps map k s t ∧
      (e = .outOfFuel ↔ Live t) ∧ (e = .outOfFuel → k = n) ∧ (e = .halted ↔ t.fault = none ∧ t.running = false) ∧
      (∀ f, e = .faulted f ↔ t.fault = some f) ∧
      (e ≠ .outOfFuel → ∀ m, n ≤ m → runWith map m s = .ok (t, e))) ∧
    (∀ f, s.fault = some f → runWith map (n + 1) s = .ok (s, .faulted f)) ∧
    (s.fault = none → s.running = false → runWith map (n + 1) s = .ok (s, .halted))

/-- A step always answers: the next state, or the recorded fault of a state that holds one. No step refuses, and no
instruction stops the machine without a fault the spec names. -/
def Obligations.EveryStepAnswers : Prop :=
  (∀ (i : Instr) (s : State), ∃ t, exec i s = .next t) ∧
  ∀ (map : OpcodeMap) (s : State), (s.fault = none ∧ ∃ t, stepWith map s = .next t) ∨
    ∃ f, s.fault = some f ∧ stepWith map s = .fault f

/-- Any instruction word the decoder reads runs at the very next step from where it is placed, in every state whose pc
can be fetched from. `withFetchWord` stands for the load from outside the machine (log 8). -/
def Obligations.PlacedWordIsTheNextInstruction : Prop :=
  ∀ (nbits w : Nat) (s : State) (i : Instr), s.mem.wf = true → s.pc.toNat ≤ 253 → decodeTableWord nbits w = some i →
    step (s.withFetchWord nbits w) = exec i (s.withFetchWord nbits w)

/-! ## The 16 instructions -/

/-- R111: ADD writes the sum modulo 256 to x[A] and changes no flag. The byte 0xA0 is R66's default (log 1). -/
def Obligations.AddWritesTheSumModulo256 : Prop := AluWriteRule .add 0xA0 fun x y => (x + y) % 256

/-- R112: MUL writes the product modulo 256 to x[A] and changes no flag. The byte 0xA2 is R66's default (log 1). -/
def Obligations.MulWritesTheProductModulo256 : Prop := AluWriteRule .mul 0xA2 fun x y => (x * y) % 256

/-- R113: AND writes the bitwise and to x[A] and changes no flag. The byte 0xA8 is R66's default (log 1). -/
def Obligations.AndWritesTheBitwiseAnd : Prop := AluWriteRule .and 0xA8 fun x y => x &&& y

/-- R114: OR writes the bitwise or to x[A] and changes no flag. The byte 0xAA is R66's default (log 1). -/
def Obligations.OrWritesTheBitwiseOr : Prop := AluWriteRule .or 0xAA fun x y => x ||| y

/-- R115: XOR writes the bitwise exclusive or to x[A] and changes no flag. The byte 0xAB is R66's default (log 1). -/
def Obligations.XorWritesTheBitwiseXor : Prop := AluWriteRule .xor 0xAB fun x y => x ^^^ y

/-- R116: CMP writes all of fl: 4 if x[A] > x[B], 2 if less, 1 if equal, unsigned; it changes no register and moves pc
on by 3. Its faults are those of ADD. The byte 0xA7 is R66's default (log 1). -/
def Obligations.CmpWritesExactlyOneFlag : Prop :=
  ∀ (a b : Byte) (s : State),
    encode defaultOpcodeMap (.cmp a b) = [0xA7, a, b] ∧
    (7 < a.toNat → exec (.cmp a b) s = .next (faultedState s (registerFault a))) ∧
    (a.toNat < 8 → 7 < b.toNat → exec (.cmp a b) s = .next (faultedState s (registerFault b))) ∧
    ∀ (ha : a.toNat < 8) (hb : b.toNat < 8),
      (s.pc.toNat = 253 → exec (.cmp a b) s = .next (faultedState s (memoryFault 256))) ∧
      (s.pc.toNat ≤ 252 → ∃ fl : Byte,
        exec (.cmp a b) s = .next { s with fl := fl, pc := BitVec.ofNat 8 (s.pc.toNat + 3) } ∧
        (s.regs[a.toNat].toNat > s.regs[b.toNat].toNat → fl = 0b100) ∧
        (s.regs[a.toNat].toNat < s.regs[b.toNat].toNat → fl = 0b010) ∧
        (s.regs[a.toNat].toNat = s.regs[b.toNat].toNat → fl = 0b001))

/-- R130: LDI writes the immediate byte to x[A]; no other register and no cell changes. The byte 0x82 is R66's default
(log 1). -/
def Obligations.LdiWritesTheImmediate : Prop :=
  ∀ (a imm : Byte) (s : State),
    encode defaultOpcodeMap (.ldi a imm) = [0x82, a, imm] ∧
    (7 < a.toNat → exec (.ldi a imm) s = .next (faultedState s (registerFault a))) ∧
    ∀ (ha : a.toNat < 8),
      (s.pc.toNat = 253 → exec (.ldi a imm) s = .next (faultedState s (memoryFault 256))) ∧
      (s.pc.toNat ≤ 252 → exec (.ldi a imm) s = .next
        { s with regs := s.regs.set a.toNat imm ha, pc := BitVec.ofNat 8 (s.pc.toNat + 3) })

/-- R131: PUSH takes sp down by 1 and stores x[A] there; every other cell and register stays. A register above 7 is
reported before an sp of 0. The byte 0x45 is R66's default (log 1). -/
def Obligations.PushStoresBelowTheStackPointer : Prop :=
  ∀ (a : Byte) (s : State), s.mem.wf = true →
    encode defaultOpcodeMap (.push a) = [0x45, a] ∧
    (7 < a.toNat → exec (.push a) s = .next (faultedState s (registerFault a))) ∧
    ∀ (ha : a.toNat < 8),
      (s.sp.toNat = 0 → exec (.push a) s = .next (faultedState s (memoryFault (-1)))) ∧
      (1 ≤ s.sp.toNat → s.pc.toNat ≤ 253 → ∃ m,
        exec (.push a) s = .next { s with
          sp := BitVec.ofNat 8 (s.sp.toNat - 1), mem := m, pc := BitVec.ofNat 8 (s.pc.toNat + 2) } ∧
        Stored s.mem m (s.sp.toNat - 1) s.regs[a.toNat])

/-- R132: POP reads the cell at sp into x[A] and takes sp up by 1; memory stays as it is. A register above 7 is reported
before an sp of 255. The byte 0x46 is R66's default (log 1). -/
def Obligations.PopReadsAtTheStackPointer : Prop :=
  ∀ (a : Byte) (s : State),
    encode defaultOpcodeMap (.pop a) = [0x46, a] ∧
    (7 < a.toNat → exec (.pop a) s = .next (faultedState s (registerFault a))) ∧
    ∀ (ha : a.toNat < 8),
      (s.sp.toNat = 255 → exec (.pop a) s = .next (faultedState s (memoryFault 256))) ∧
      (s.sp.toNat ≤ 254 → s.pc.toNat ≤ 253 → exec (.pop a) s = .next
        { s with
          regs := s.regs.set a.toNat (s.mem.read s.sp.toNat) ha
          sp := BitVec.ofNat 8 (s.sp.toNat + 1)
          pc := BitVec.ofNat 8 (s.pc.toNat + 2) })

/-- R140: CALL takes sp down by 1, stores pc + 2 there and jumps to x[A]; every other cell and register stays. The byte
0x50 is R66's default (log 1). -/
def Obligations.CallStoresTheReturnAddress : Prop :=
  ∀ (a : Byte) (s : State), s.mem.wf = true →
    encode defaultOpcodeMap (.call a) = [0x50, a] ∧
    (7 < a.toNat → exec (.call a) s = .next (faultedState s (registerFault a))) ∧
    ∀ (ha : a.toNat < 8),
      (s.sp.toNat = 0 → exec (.call a) s = .next (faultedState s (memoryFault (-1)))) ∧
      (1 ≤ s.sp.toNat → s.pc.toNat ≤ 253 → ∃ m,
        exec (.call a) s = .next { s with
          sp := BitVec.ofNat 8 (s.sp.toNat - 1), mem := m, pc := s.regs[a.toNat] } ∧
        Stored s.mem m (s.sp.toNat - 1) (BitVec.ofNat 8 (s.pc.toNat + 2)))

/-- R141: RET jumps to the byte at sp and takes sp up by 1; memory and registers stay. The byte 0x11 is R66's default
(log 1). -/
def Obligations.RetPopsTheProgramCounter : Prop :=
  encode defaultOpcodeMap .ret = [0x11] ∧
  ∀ (s : State),
    (s.sp.toNat = 255 → exec .ret s = .next (faultedState s (memoryFault 256))) ∧
    (s.sp.toNat ≤ 254 → exec .ret s = .next
      { s with pc := s.mem.read s.sp.toNat, sp := BitVec.ofNat 8 (s.sp.toNat + 1) })

/-- R142: JMP jumps to x[A] and changes nothing else. The byte 0x54 is R66's default (log 1). -/
def Obligations.JmpJumpsToTheRegister : Prop :=
  ∀ (a : Byte) (s : State),
    encode defaultOpcodeMap (.jmp a) = [0x54, a] ∧
    (7 < a.toNat → exec (.jmp a) s = .next (faultedState s (registerFault a))) ∧
    ∀ (_ : a.toNat < 8), exec (.jmp a) s = .next { s with pc := s.regs[a.toNat] }

/-- R143: JEQ jumps to x[A] if bit 0 of fl is set, and moves to pc + 2 if it is clear; only the taken jump checks the
register index. The byte 0x55 is R66's default (log 1). -/
def Obligations.JeqJumpsIfEqualIsSet : Prop :=
  ∀ (a : Byte) (s : State),
    encode defaultOpcodeMap (.jeq a) = [0x55, a] ∧
    (s.fl.getLsbD 0 = true →
      (7 < a.toNat → exec (.jeq a) s = .next (faultedState s (registerFault a))) ∧
      ∀ (_ : a.toNat < 8), exec (.jeq a) s = .next { s with pc := s.regs[a.toNat] }) ∧
    (s.fl.getLsbD 0 = false → s.pc.toNat ≤ 253 →
      exec (.jeq a) s = .next { s with pc := BitVec.ofNat 8 (s.pc.toNat + 2) })

/-- R144: JNE jumps to x[A] if bit 0 of fl is clear, and moves to pc + 2 if it is set; only the taken jump checks the
register index. The byte 0x56 is R66's default (log 1). -/
def Obligations.JneJumpsIfEqualIsClear : Prop :=
  ∀ (a : Byte) (s : State),
    encode defaultOpcodeMap (.jne a) = [0x56, a] ∧
    (s.fl.getLsbD 0 = false →
      (7 < a.toNat → exec (.jne a) s = .next (faultedState s (registerFault a))) ∧
      ∀ (_ : a.toNat < 8), exec (.jne a) s = .next { s with pc := s.regs[a.toNat] }) ∧
    (s.fl.getLsbD 0 = true → s.pc.toNat ≤ 253 →
      exec (.jne a) s = .next { s with pc := BitVec.ofNat 8 (s.pc.toNat + 2) })

/-- R160: HLT clears the halt state, moves pc on by 1 and changes nothing else; a HLT at 254 or 255 faults at fetch;
and every later step returns Halted and changes nothing. The byte 0x01 is R66's default (log 1). -/
def Obligations.HltStopsTheCore : Prop :=
  encode defaultOpcodeMap .hlt = [0x01] ∧
  ∀ (s : State),
    (s.pc.toNat ≤ 253 →
      exec .hlt s = .next { s with running := false, pc := BitVec.ofNat 8 (s.pc.toNat + 1) }) ∧
    (Live s → 253 < s.pc.toNat → step s = .next (faultedState s (memoryFault 256))) ∧
    (∀ t map, s.fault = none → exec .hlt s = .next t → t.fault = none → stepPortWith map t = .ok (t, .halted))

/-- R161: PRN appends x[A] to the output and changes nothing else but pc; with a register above 7 it emits nothing. The
sink accepts every byte (log 6). The byte 0x47 is R66's default (log 1). -/
def Obligations.PrnAppendsTheRegister : Prop :=
  ∀ (a : Byte) (s : State),
    encode defaultOpcodeMap (.prn a) = [0x47, a] ∧
    (7 < a.toNat → exec (.prn a) s = .next (faultedState s (registerFault a))) ∧
    ∀ (_ : a.toNat < 8), s.pc.toNat ≤ 253 → exec (.prn a) s = .next
      { s with out := s.out ++ [s.regs[a.toNat]], pc := BitVec.ofNat 8 (s.pc.toNat + 2) }

/-! ## Frames: what an instruction leaves as it is -/

/-- R22: no instruction changes a register other than the ones R22's table lets it write. -/
def Obligations.RegistersKeptButTheDestination : Prop :=
  ∀ (i : Instr) (s t : State), exec i s = .next t →
    ∀ r : Fin 8, r.val ∉ writtenRegisters i → t.regs[r] = s.regs[r]

/-- R28: no instruction but CMP changes fl, and a CMP that does not fault leaves exactly one of the bits 0, 1 and 2. -/
def Obligations.FlagsWrittenOnlyByCmp : Prop :=
  ∀ (i : Instr) (s t : State), s.fault = none → exec i s = .next t →
    ((∀ a b, i ≠ .cmp a b) → t.fl = s.fl) ∧
    (∀ a b, i = .cmp a b → t.fault = none → t.fl = 1 ∨ t.fl = 2 ∨ t.fl = 4)

/-- R26: no instruction but PUSH, POP, CALL and RET changes sp; the ones that do change it by exactly 1, down for PUSH
and CALL and up for POP and RET, and never past 0 or 255. -/
def Obligations.StackPointerMovesByOneOrNot : Prop :=
  ∀ (i : Instr) (s t : State), s.fault = none → exec i s = .next t →
    (usesStack i = false ∨ t.fault ≠ none → t.sp = s.sp) ∧
    (t.fault = none → ∀ a, i = .push a ∨ i = .call a → t.sp.toNat + 1 = s.sp.toNat) ∧
    (t.fault = none → (i = .ret ∨ ∃ a, i = .pop a) → t.sp.toNat = s.sp.toNat + 1)

/-- R44: every byte of memory reads as before after every instruction, but for the byte at sp - 1 after a PUSH or a
CALL, where sp is the stack pointer before it. -/
def Obligations.MemoryKeptButTheStackSlot : Prop :=
  ∀ (i : Instr) (s t : State), s.mem.wf = true → exec i s = .next t → ∀ addr : Nat,
    ((∀ a, i ≠ .push a ∧ i ≠ .call a) ∨ (addr : Int) ≠ (s.sp.toNat : Int) - 1) →
      t.mem.read addr = s.mem.read addr

/-- R32: the output only grows: every instruction but PRN leaves it, and a PRN that does not fault appends one byte. -/
def Obligations.OutputWrittenOnlyByPrn : Prop :=
  ∀ (i : Instr) (s t : State), s.fault = none → exec i s = .next t →
    ((∀ a, i ≠ .prn a) ∨ t.fault ≠ none → t.out = s.out) ∧
    (∀ a, i = .prn a → t.fault = none → ∃ v, s.regs[a.toNat]? = some v ∧ t.out = s.out ++ [v])

/-- R29: running is true at reset and after every load; only HLT writes it, to false; no instruction sets it back to
true; and no instruction reads it: run with the other value, an instruction does the same to everything else. The host
sees it through the outcome of the state. -/
def Obligations.RunningWrittenOnlyByHlt : Prop :=
  State.reset.running = true ∧ (∀ image s, loadProgram image = .ok s → s.running = true) ∧
  (∀ (i : Instr) (s t : State), exec i s = .next t →
    (i ≠ .hlt → t.running = s.running) ∧ (t.running = true → s.running = true) ∧
    (∀ b, ∃ b', exec i { s with running := b } = .next { t with running := b' })) ∧
  (∀ s : State, s.fault = none → s.outcome = if s.running then .running else .halted)

/-- R22: an instruction neither reads nor writes a register whose index it does not access: with another value there it
does the same to everything else and leaves that value. A jump that is not taken accesses none. -/
def Obligations.UnaccessedRegistersDoNotMatter : Prop :=
  ∀ (i : Instr) (s t : State) (r : Fin 8) (v : Byte), (∀ a ∈ accessedRegisters i s.fl, a.toNat ≠ r.val) →
    exec i s = .next t →
    exec i { s with regs := s.regs.set r v } = .next { t with regs := t.regs.set r v }

/-- R28: bit 0 is the only bit of fl that any instruction reads: with other bits changed, every instruction but CMP does
the same to everything else, and CMP, which overwrites fl, leaves the same state where it does not fault. -/
def Obligations.OnlyTheEqualBitIsRead : Prop :=
  ∀ (i : Instr) (s t : State) (fl' : Byte), fl'.getLsbD 0 = s.fl.getLsbD 0 → exec i s = .next t →
    ((∀ a b, i ≠ .cmp a b) → exec i { s with fl := fl' } = .next { t with fl := fl' }) ∧
    (∀ a b, i = .cmp a b → s.fault = none → t.fault = none → exec i { s with fl := fl' } = .next t)

/-! ## Memory and stack -/

/-- R42: a write sets the cell at its address to the byte and changes no other cell and no other state. -/
def Obligations.MemWriteChangesOneCell : Prop :=
  ∀ (s : State) (addr v : Byte), s.mem.wf = true →
    ∃ m, s.memWrite addr v = { s with mem := m } ∧ Stored s.mem m addr.toNat v

/-- R133: a PUSH, then instructions that do not touch the stack, then a POP, none of them faulting: the register popped
holds the value pushed, sp is what it was before, and the cell keeps the value. -/
def Obligations.PushThenPopRestores : Prop :=
  ∀ (a b : Byte) (between : List Instr) (s s₁ s₂ t : State), s.mem.wf = true → (∀ i ∈ between, usesStack i = false) →
    exec (.push a) s = .next s₁ → execAll between s₁ = .next s₂ → exec (.pop b) s₂ = .next t →
    s.fault = none → t.fault = none →
    ∃ (ha : a.toNat < 8) (hb : b.toNat < 8),
      t.regs[b.toNat] = s.regs[a.toNat] ∧ t.sp = s.sp ∧ t.mem.read (s.sp.toNat - 1) = s.regs[a.toNat]

/-- R148: after a CALL at address c, whatever the subroutine does to the rest of the state, a RET that finds sp and the
cell at the top of the stack as the CALL left them sets pc to c + 2 and sp to what it was before the CALL. -/
def Obligations.ReturnGoesBehindTheCall : Prop :=
  ∀ (a : Byte) (s s₁ s₂ : State), s.mem.wf = true → a.toNat < 8 → 1 ≤ s.sp.toNat → s.pc.toNat ≤ 253 →
    exec (.call a) s = .next s₁ → s₂.sp = s₁.sp → s₂.mem.read s₁.sp.toNat = s₁.mem.read s₁.sp.toNat →
    exec .ret s₂ = .next { s₂ with pc := BitVec.ofNat 8 (s.pc.toNat + 2), sp := s.sp }

/-- R52, R196: what a PUSH or a CALL stores is seen by the next fetch, and not by the instruction that stores it. The
instruction runs as fetched, at every pc that can be fetched from and wherever sp - 1 lies, its own bytes among them: pc
goes to the address after a PUSH or to the register of a CALL, and memory is the old one with the byte stored at sp - 1.
The next step fetches from that memory: it runs the instruction that the three cells there decode to, or raises
UnknownOpcode for an opcode byte no mnemonic has; where the byte stored is a HLT opcode at the address the core goes on
at, it halts, whatever stood there before. -/
def Obligations.StoreIsSeenByTheNextFetch : Prop :=
  ∀ (map : OpcodeMap) (i : Instr) (a : Byte) (_ : a.toNat < 8) (s : State) (v target : Byte),
    Live s → s.mem.wf = true → Fetches map s i → 1 ≤ s.sp.toNat →
    (i = .push a ∧ v = s.regs[a.toNat] ∧ target = BitVec.ofNat 8 (s.pc.toNat + 2)) ∨
      (i = .call a ∧ v = BitVec.ofNat 8 (s.pc.toNat + 2) ∧ target = s.regs[a.toNat]) →
    let cell (x : Nat) : Byte := if x = s.sp.toNat - 1 then v else s.mem.read x
    ∃ t, stepWith map s = .next t ∧ Live t ∧ t.pc = target ∧ t.sp.toNat + 1 = s.sp.toNat ∧
      (∀ x, t.mem.read x = cell x) ∧
      (target.toNat ≤ 253 →
        (∀ j, decode map (cell target.toNat) (cell (target.toNat + 1)) (cell (target.toNat + 2)) = .ok j →
          stepWith map t = exec j t) ∧
        ((∀ m, map m ≠ cell target.toNat) →
          stepWith map t = .next (faultedState t (.unknownOpcode target (cell target.toNat)))) ∧
        (map.Legal → target.toNat + 1 = s.sp.toNat → v = map .hlt →
          ∃ u, stepWith map t = .next u ∧ u.running = false ∧ u.fault = none))

/-! ## The invariant -/

/-- The state after reset has the invariant. -/
def Obligations.ResetHasTheInvariant : Prop := Inv State.reset

/-- Every step keeps the invariant, from every state that has it and under every opcode map: memory stays canonical and
fl stays one of 0, 1, 2 and 4. -/
def Obligations.StepKeepsTheInvariant : Prop :=
  ∀ (map : OpcodeMap) (s t : State), Inv s → stepWith map s = .next t → Inv t
end

