-- ==== Sys2Proof/Laws/Decode.lean ====
section
/-! SUPPORT. Looking an opcode byte up in a legal map, and decoding in terms of the lookup (spec 30_encoding.md R66). -/

namespace Sys2Proof

theorem Mnemonic.mem_all (m : Mnemonic) : m ∈ Mnemonic.all := by cases m <;> decide

/-- A legal map gives distinct mnemonics distinct bytes. -/
theorem OpcodeMap.Legal.injective {map : OpcodeMap} (h : map.Legal) {m m' : Mnemonic} (e : map m = map m') : m = m' :=
  List.inj_on_of_nodup_map h.1 m.mem_all m'.mem_all e

theorem OpcodeMap.Legal.operandCount {map : OpcodeMap} (h : map.Legal) (m : Mnemonic) :
    (opcodeN (map m)).toNat = m.operandCount := (h.2 m m.mem_all).1

theorem OpcodeMap.Legal.setsPc {map : OpcodeMap} (h : map.Legal) (m : Mnemonic) :
    opcodeP (map m) = m.setsPc := (h.2 m m.mem_all).2.2

/-- What is found has the byte that was looked up. -/
theorem OpcodeMap.lookup_byte {map : OpcodeMap} {ir : Byte} {m : Mnemonic} (h : map.lookup ir = some m) :
    map m = ir := by
  simpa using List.find?_some h

theorem OpcodeMap.Legal.lookup {map : OpcodeMap} (h : map.Legal) (m : Mnemonic) : map.lookup (map m) = some m := by
  cases e : map.lookup (map m) with
  | none => simpa using List.find?_eq_none.mp e m m.mem_all
  | some m' => rw [h.injective (lookup_byte e)]

theorem OpcodeMap.lookup_eq_none {map : OpcodeMap} {ir : Byte} : map.lookup ir = none ↔ ∀ m, map m ≠ ir := by
  simp [OpcodeMap.lookup, List.find?_eq_none, Mnemonic.mem_all]

@[simp] theorem Mnemonic.build_mnemonic (m : Mnemonic) (a b : Byte) : (m.build a b).mnemonic = m := by cases m <;> rfl

theorem decode_of_lookup {map : OpcodeMap} {ir : Byte} {m : Mnemonic} (a b : Byte) (h : map.lookup ir = some m) :
    decode map ir a b = .ok (m.build a b) := by rw [decode, h]

/-- A decoded instruction is built from the mnemonic of its opcode byte. -/
theorem decode_ok {map : OpcodeMap} {ir a b : Byte} {i : Instr} (h : decode map ir a b = .ok i) :
    ∃ m, map.lookup ir = some m ∧ i = m.build a b := by
  rw [decode] at h
  split at h
  · next m hm =>
    injection h with h
    exact ⟨m, hm, h.symm⟩
  · contradiction

end Sys2Proof
end

