-- ==== Sys2Proof/Laws/State.lean ====
section
/-! SUPPORT. One lemma per field per update of the state, true by rfl, so that no later proof unfolds an update. -/

namespace Sys2Proof.Machine

section
variable (s : State) (r q : Fin Config.numRegs) (v a : Byte) (f : Fault)

/-! ### setReg -/
@[simp] theorem setReg_regs : (s.setReg r v).regs = s.regs.set r v := rfl
@[simp] theorem setReg_pc : (s.setReg r v).pc = s.pc := rfl
@[simp] theorem setReg_sp : (s.setReg r v).sp = s.sp := rfl
@[simp] theorem setReg_fl : (s.setReg r v).fl = s.fl := rfl
@[simp] theorem setReg_mem : (s.setReg r v).mem = s.mem := rfl
@[simp] theorem setReg_running : (s.setReg r v).running = s.running := rfl
@[simp] theorem setReg_fault : (s.setReg r v).fault = s.fault := rfl
@[simp] theorem setReg_out : (s.setReg r v).out = s.out := rfl

/-! ### setPc -/
@[simp] theorem setPc_regs : (s.setPc v).regs = s.regs := rfl
@[simp] theorem setPc_pc : (s.setPc v).pc = v := rfl
@[simp] theorem setPc_sp : (s.setPc v).sp = s.sp := rfl
@[simp] theorem setPc_fl : (s.setPc v).fl = s.fl := rfl
@[simp] theorem setPc_mem : (s.setPc v).mem = s.mem := rfl
@[simp] theorem setPc_running : (s.setPc v).running = s.running := rfl
@[simp] theorem setPc_fault : (s.setPc v).fault = s.fault := rfl
@[simp] theorem setPc_out : (s.setPc v).out = s.out := rfl

/-! ### setSp -/
@[simp] theorem setSp_regs : (s.setSp v).regs = s.regs := rfl
@[simp] theorem setSp_pc : (s.setSp v).pc = s.pc := rfl
@[simp] theorem setSp_sp : (s.setSp v).sp = v := rfl
@[simp] theorem setSp_fl : (s.setSp v).fl = s.fl := rfl
@[simp] theorem setSp_mem : (s.setSp v).mem = s.mem := rfl
@[simp] theorem setSp_running : (s.setSp v).running = s.running := rfl
@[simp] theorem setSp_fault : (s.setSp v).fault = s.fault := rfl
@[simp] theorem setSp_out : (s.setSp v).out = s.out := rfl

/-! ### setFl -/
@[simp] theorem setFl_regs : (s.setFl v).regs = s.regs := rfl
@[simp] theorem setFl_pc : (s.setFl v).pc = s.pc := rfl
@[simp] theorem setFl_sp : (s.setFl v).sp = s.sp := rfl
@[simp] theorem setFl_fl : (s.setFl v).fl = v := rfl
@[simp] theorem setFl_mem : (s.setFl v).mem = s.mem := rfl
@[simp] theorem setFl_running : (s.setFl v).running = s.running := rfl
@[simp] theorem setFl_fault : (s.setFl v).fault = s.fault := rfl
@[simp] theorem setFl_out : (s.setFl v).out = s.out := rfl

/-! ### memWrite -/
@[simp] theorem memWrite_regs : (s.memWrite a v).regs = s.regs := rfl
@[simp] theorem memWrite_pc : (s.memWrite a v).pc = s.pc := rfl
@[simp] theorem memWrite_sp : (s.memWrite a v).sp = s.sp := rfl
@[simp] theorem memWrite_fl : (s.memWrite a v).fl = s.fl := rfl
@[simp] theorem memWrite_mem : (s.memWrite a v).mem = s.mem.write a.toNat v := rfl
@[simp] theorem memWrite_running : (s.memWrite a v).running = s.running := rfl
@[simp] theorem memWrite_fault : (s.memWrite a v).fault = s.fault := rfl
@[simp] theorem memWrite_out : (s.memWrite a v).out = s.out := rfl

/-! ### halt -/
@[simp] theorem halt_regs : s.halt.regs = s.regs := rfl
@[simp] theorem halt_pc : s.halt.pc = s.pc := rfl
@[simp] theorem halt_sp : s.halt.sp = s.sp := rfl
@[simp] theorem halt_fl : s.halt.fl = s.fl := rfl
@[simp] theorem halt_mem : s.halt.mem = s.mem := rfl
@[simp] theorem halt_running : s.halt.running = false := rfl
@[simp] theorem halt_fault : s.halt.fault = s.fault := rfl
@[simp] theorem halt_out : s.halt.out = s.out := rfl

/-! ### emit -/
@[simp] theorem emit_regs : (s.emit v).regs = s.regs := rfl
@[simp] theorem emit_pc : (s.emit v).pc = s.pc := rfl
@[simp] theorem emit_sp : (s.emit v).sp = s.sp := rfl
@[simp] theorem emit_fl : (s.emit v).fl = s.fl := rfl
@[simp] theorem emit_mem : (s.emit v).mem = s.mem := rfl
@[simp] theorem emit_running : (s.emit v).running = s.running := rfl
@[simp] theorem emit_fault : (s.emit v).fault = s.fault := rfl
@[simp] theorem emit_out : (s.emit v).out = s.out ++ [v] := rfl

/-! ### withFault -/
@[simp] theorem withFault_regs : (s.withFault f).regs = s.regs := rfl
@[simp] theorem withFault_pc : (s.withFault f).pc = s.pc := rfl
@[simp] theorem withFault_sp : (s.withFault f).sp = s.sp := rfl
@[simp] theorem withFault_fl : (s.withFault f).fl = s.fl := rfl
@[simp] theorem withFault_mem : (s.withFault f).mem = s.mem := rfl
@[simp] theorem withFault_running : (s.withFault f).running = s.running := rfl
@[simp] theorem withFault_fault : (s.withFault f).fault = some f := rfl
@[simp] theorem withFault_out : (s.withFault f).out = s.out := rfl

/-! ### reads of registers and cells -/
@[simp] theorem reg_setReg_same : (s.setReg r v).reg r = v := by simp [State.reg, State.setReg]

theorem reg_setReg_other (h : r ≠ q) : (s.setReg r v).reg q = s.reg q := by
  have h' : (r : Nat) ≠ q := fun e => h (Fin.ext e)
  simp [State.reg, State.setReg, h']

@[simp] theorem reg_setPc : (s.setPc v).reg r = s.reg r := rfl
@[simp] theorem reg_setSp : (s.setSp v).reg r = s.reg r := rfl
@[simp] theorem reg_setFl : (s.setFl v).reg r = s.reg r := rfl
@[simp] theorem reg_memWrite : (s.memWrite a v).reg r = s.reg r := rfl
@[simp] theorem reg_halt : s.halt.reg r = s.reg r := rfl
@[simp] theorem reg_emit : (s.emit v).reg r = s.reg r := rfl
@[simp] theorem reg_withFault : (s.withFault f).reg r = s.reg r := rfl

theorem memRead_eq : s.memRead a = s.mem.read a.toNat := rfl

end

end Sys2Proof.Machine
end

