-- ==== Sys2Proof/Laws/Ops.lean ====
section
/-! SUPPORT. For each shared operation, what it does when its check passes, what it does when the check fails, and, as
one inversion lemma, everything it can do when it answers a next state. Later proofs cite these and do not unfold the
operations. -/

namespace Sys2Proof.Machine

variable {s t : State} {k : Byte → Host.Outcome State Fault Refusal}

/-- The byte of an address in range has that address as its number. -/
theorem addressByte_toNat {x : Int} (h0 : 0 ≤ x) (h1 : x < 256) : ((BitVec.ofNat 8 x.toNat).toNat : Int) = x := by
  rw [BitVec.toNat_ofNat, Nat.mod_eq_of_lt (by omega)]
  omega

theorem raise_eq_next {f : Fault} (h : raise f s = .next t) : t = s.withFault f := by
  injection h with h
  exact h.symm

theorem isAddress_iff {x : Int} : isAddress x = true ↔ 0 ≤ x ∧ x < 256 := by
  cases x with
  | ofNat n => simp [isAddress, Config.memSize]
  | negSucc n => simp [isAddress]

theorem withAddress_inside {x : Int} (h0 : 0 ≤ x) (h1 : x < 256) :
    withAddress x s k = k (BitVec.ofNat 8 x.toNat) := if_pos (isAddress_iff.mpr ⟨h0, h1⟩)

theorem withAddress_outside {x : Int} (h : ¬(0 ≤ x ∧ x < 256)) :
    withAddress x s k = raise (.outOfBoundsAccess .memory x) s :=
  if_neg fun hx => h (isAddress_iff.mp hx)

theorem withAddress_next {x : Int} (h : withAddress x s k = .next t) :
    (0 ≤ x ∧ x < 256 ∧ k (BitVec.ofNat 8 x.toNat) = .next t) ∨
      (¬(0 ≤ x ∧ x < 256) ∧ t = s.withFault (.outOfBoundsAccess .memory x)) := by
  by_cases hx : 0 ≤ x ∧ x < 256
  · rw [withAddress_inside hx.1 hx.2] at h
    exact .inl ⟨hx.1, hx.2, h⟩
  · rw [withAddress_outside hx] at h
    exact .inr ⟨hx, raise_eq_next h⟩

theorem withRegister_named {i : Byte} {k : Fin Config.numRegs → Host.Outcome State Fault Refusal} (h : i.toNat < 8) :
    withRegister i s k = k ⟨i.toNat, h⟩ := dif_pos h

theorem withRegister_unnamed {i : Byte} {k : Fin Config.numRegs → Host.Outcome State Fault Refusal}
    (h : ¬i.toNat < 8) : withRegister i s k = raise (.outOfBoundsAccess .register i.toNat) s := dif_neg h

theorem withRegister_next {i : Byte} {k : Fin Config.numRegs → Host.Outcome State Fault Refusal}
    (h : withRegister i s k = .next t) :
    (∃ hi : i.toNat < 8, k ⟨i.toNat, hi⟩ = .next t) ∨
      (¬i.toNat < 8 ∧ t = s.withFault (.outOfBoundsAccess .register i.toNat)) := by
  by_cases hi : i.toNat < 8
  · rw [withRegister_named hi] at h
    exact .inl ⟨hi, h⟩
  · rw [withRegister_unnamed hi] at h
    exact .inr ⟨hi, raise_eq_next h⟩

theorem withPushSlot_room (h : 0 < s.sp.toNat) : withPushSlot s k = k (BitVec.ofNat 8 (s.sp.toNat - 1)) := by
  have := s.sp.isLt
  rw [withPushSlot, withAddress_inside (by omega) (by omega)]
  congr
  omega

theorem withPushSlot_full (h : s.sp.toNat = 0) : withPushSlot s k = raise (.outOfBoundsAccess .memory (-1)) s := by
  rw [withPushSlot, withAddress_outside (by omega), h]
  rfl

theorem withPushSlot_next (h : withPushSlot s k = .next t) :
    (0 < s.sp.toNat ∧ k (BitVec.ofNat 8 (s.sp.toNat - 1)) = .next t) ∨
      (s.sp.toNat = 0 ∧ t = s.withFault (.outOfBoundsAccess .memory (-1))) := by
  rcases Nat.eq_zero_or_pos s.sp.toNat with h0 | h0
  · rw [withPushSlot_full h0] at h
    exact .inr ⟨h0, raise_eq_next h⟩
  · rw [withPushSlot_room h0] at h
    exact .inl ⟨h0, h⟩

theorem withPoppedSp_room (h : s.sp.toNat < 255) : withPoppedSp s k = k (BitVec.ofNat 8 (s.sp.toNat + 1)) := by
  rw [withPoppedSp, withAddress_inside (by omega) (by omega)]
  congr

theorem withPoppedSp_end (h : s.sp.toNat = 255) : withPoppedSp s k = raise (.outOfBoundsAccess .memory 256) s := by
  rw [withPoppedSp, withAddress_outside (by omega), h]
  rfl

theorem withPoppedSp_next (h : withPoppedSp s k = .next t) :
    (s.sp.toNat < 255 ∧ k (BitVec.ofNat 8 (s.sp.toNat + 1)) = .next t) ∨
      (s.sp.toNat = 255 ∧ t = s.withFault (.outOfBoundsAccess .memory 256)) := by
  have := s.sp.isLt
  by_cases h0 : s.sp.toNat = 255
  · rw [withPoppedSp_end h0] at h
    exact .inr ⟨h0, raise_eq_next h⟩
  · rw [withPoppedSp_room (by omega)] at h
    exact .inl ⟨by omega, h⟩

theorem withNextPc_inside {m : Mnemonic} (h : s.pc.toNat + m.length < 256) :
    withNextPc m s k = k (BitVec.ofNat 8 (s.pc.toNat + m.length)) := by
  rw [withNextPc, withAddress_inside (by omega) (by omega)]
  congr

theorem withNextPc_outside {m : Mnemonic} (h : 256 ≤ s.pc.toNat + m.length) :
    withNextPc m s k = raise (.outOfBoundsAccess .memory (s.pc.toNat + m.length : Nat)) s := by
  rw [withNextPc, withAddress_outside (by omega)]
  rfl

theorem withNextPc_next {m : Mnemonic} (h : withNextPc m s k = .next t) :
    (s.pc.toNat + m.length < 256 ∧ k (BitVec.ofNat 8 (s.pc.toNat + m.length)) = .next t) ∨
      (256 ≤ s.pc.toNat + m.length ∧ t = s.withFault (.outOfBoundsAccess .memory (s.pc.toNat + m.length : Nat))) := by
  by_cases hx : s.pc.toNat + m.length < 256
  · rw [withNextPc_inside hx] at h
    exact .inl ⟨hx, h⟩
  · rw [withNextPc_outside (by omega)] at h
    exact .inr ⟨by omega, raise_eq_next h⟩

theorem advance_inside {m : Mnemonic} {p : State} (h : s.pc.toNat + m.length < 256) :
    advance m s p = .next (p.setPc (BitVec.ofNat 8 (s.pc.toNat + m.length))) := withNextPc_inside h

theorem advance_outside {m : Mnemonic} {p : State} (h : 256 ≤ s.pc.toNat + m.length) :
    advance m s p = raise (.outOfBoundsAccess .memory (s.pc.toNat + m.length : Nat)) s := withNextPc_outside h

theorem advance_next {m : Mnemonic} {p : State} (h : advance m s p = .next t) :
    (s.pc.toNat + m.length < 256 ∧ t = p.setPc (BitVec.ofNat 8 (s.pc.toNat + m.length))) ∨
      (256 ≤ s.pc.toNat + m.length ∧ t = s.withFault (.outOfBoundsAccess .memory (s.pc.toNat + m.length : Nat))) := by
  rcases withNextPc_next h with ⟨hx, hn⟩ | hx
  · injection hn with hn
    exact .inl ⟨hx, hn.symm⟩
  · exact .inr hx

theorem fetch_inside {k : Byte → Byte → Byte → Host.Outcome State Fault Refusal} (h : s.pc.toNat ≤ 253) :
    fetch s k = k (s.mem.read s.pc.toNat) (s.mem.read (s.pc.toNat + 1)) (s.mem.read (s.pc.toNat + 2)) := by
  rw [fetch, withAddress_inside (by omega) (by omega), withAddress_inside (by omega) (by omega), memRead_eq, memRead_eq,
    memRead_eq, BitVec.toNat_ofNat, BitVec.toNat_ofNat, Nat.mod_eq_of_lt (by omega), Nat.mod_eq_of_lt (by omega)]
  congr 1

theorem fetch_outside {k : Byte → Byte → Byte → Host.Outcome State Fault Refusal} (h : 253 < s.pc.toNat) :
    fetch s k = raise (.outOfBoundsAccess .memory 256) s := by
  have := s.pc.isLt
  rw [fetch]
  by_cases h1 : s.pc.toNat = 255
  · rw [withAddress_outside (by omega), h1]
    rfl
  · rw [withAddress_inside (by omega) (by omega), withAddress_outside (by omega), show s.pc.toNat = 254 by omega]
    rfl

/-- The two registers of an ALU instruction, when it answers a next state. -/
theorem withRegisters_next {a b : Byte} {k : Fin Config.numRegs → Fin Config.numRegs → Host.Outcome State Fault Refusal}
    (h : withRegisters a b s k = .next t) :
    (∃ (ha : a.toNat < 8) (hb : b.toNat < 8), k ⟨a.toNat, ha⟩ ⟨b.toNat, hb⟩ = .next t) ∨
      (∃ i, (i = a ∨ i = b) ∧ ¬i.toNat < 8 ∧ t = s.withFault (.outOfBoundsAccess .register i.toNat)) := by
  rcases withRegister_next h with ⟨ha, h⟩ | ⟨ha, rfl⟩
  · rcases withRegister_next h with ⟨hb, h⟩ | ⟨hb, rfl⟩
    · exact .inl ⟨ha, hb, h⟩
    · exact .inr ⟨b, .inr rfl, hb, rfl⟩
  · exact .inr ⟨a, .inl rfl, ha, rfl⟩

theorem withRegisters_named {a b : Byte} {k : Fin Config.numRegs → Fin Config.numRegs → Host.Outcome State Fault Refusal}
    (ha : a.toNat < 8) (hb : b.toNat < 8) : withRegisters a b s k = k ⟨a.toNat, ha⟩ ⟨b.toNat, hb⟩ := by
  rw [withRegisters, withRegister_named ha, withRegister_named hb]

end Sys2Proof.Machine
end

