-- ==== Sys2Proof/Laws/Exec.lean ====
section
/-! SUPPORT. One unfolding equation per instruction: its meaning as the shared operations it is built from, so that a
proof rewrites with it and then cites the lemmas of Laws/Ops.lean; and, as one inversion lemma, everything an instruction
can do (`exec_next`), which a frame or an invariant cites instead of unfolding any meaning. -/

namespace Sys2Proof.Machine

variable (a b : Byte) (s : State)

theorem exec_hlt : exec .hlt s = advance .hlt s s.halt := rfl

theorem exec_ret : exec .ret s = withPoppedSp s fun sp' => .next ((s.setPc (s.memRead s.sp)).setSp sp') := rfl

theorem exec_push : exec (.push a) s = withRegister a s fun r => withPushSlot s fun slot =>
    advance .push s ((s.setSp slot).memWrite slot (s.reg r)) := rfl

theorem exec_pop : exec (.pop a) s = withRegister a s fun r => withPoppedSp s fun sp' =>
    advance .pop s ((s.setReg r (s.memRead s.sp)).setSp sp') := rfl

theorem exec_prn : exec (.prn a) s = withRegister a s fun r => advance .prn s (s.emit (s.reg r)) := rfl

theorem exec_call : exec (.call a) s = withRegister a s fun r => withPushSlot s fun slot =>
    withNextPc .call s fun ret => .next (((s.setSp slot).memWrite slot ret).setPc (s.reg r)) := rfl

theorem exec_jmp : exec (.jmp a) s = jumpTo a s := rfl

theorem exec_jeq : exec (.jeq a) s = if s.fl.getLsbD 0 then jumpTo a s else advance .jeq s s := rfl

theorem exec_jne : exec (.jne a) s = if s.fl.getLsbD 0 then advance .jne s s else jumpTo a s := rfl

theorem exec_ldi : exec (.ldi a b) s = withRegister a s fun r => advance .ldi s (s.setReg r b) := rfl

theorem exec_add : exec (.add a b) s = aluWrite .add sumByte a b s := rfl

theorem exec_mul : exec (.mul a b) s = aluWrite .mul productByte a b s := rfl

theorem exec_cmp : exec (.cmp a b) s = withRegisters a b s fun ra rb =>
    advance .cmp s (s.setFl (compareFlags (s.reg ra) (s.reg rb))) := rfl

theorem exec_and : exec (.and a b) s = aluWrite .and (fun x y => x &&& y) a b s := rfl

theorem exec_or : exec (.or a b) s = aluWrite .or (fun x y => x ||| y) a b s := rfl

theorem exec_xor : exec (.xor a b) s = aluWrite .xor (fun x y => x ^^^ y) a b s := rfl

variable {s} {t : State} {m : Mnemonic} {f : Byte → Byte → Byte} {a b}

theorem jumpTo_named (h : a.toNat < 8) : jumpTo a s = .next (s.setPc (s.reg ⟨a.toNat, h⟩)) := withRegister_named h

theorem jumpTo_unnamed (h : ¬a.toNat < 8) : jumpTo a s = raise (.outOfBoundsAccess .register a.toNat) s :=
  withRegister_unnamed h

theorem jumpTo_next (h : jumpTo a s = .next t) :
    (∃ ha : a.toNat < 8, t = s.setPc (s.reg ⟨a.toNat, ha⟩)) ∨
      (¬a.toNat < 8 ∧ t = s.withFault (.outOfBoundsAccess .register a.toNat)) := by
  rcases withRegister_next h with ⟨ha, h⟩ | h
  · injection h with h
    exact .inl ⟨ha, h.symm⟩
  · exact .inr h

/-- Everything an ALU instruction that writes a register can do. -/
theorem aluWrite_next (h : aluWrite m f a b s = .next t) :
    (∃ (ha : a.toNat < 8) (hb : b.toNat < 8), s.pc.toNat + m.length < 256 ∧
      t = (s.setReg ⟨a.toNat, ha⟩ (f (s.reg ⟨a.toNat, ha⟩) (s.reg ⟨b.toNat, hb⟩))).setPc
        (BitVec.ofNat 8 (s.pc.toNat + m.length))) ∨
      ∃ x, t = s.withFault x := by
  rcases withRegisters_next h with ⟨ha, hb, h⟩ | ⟨i, _, _, rfl⟩
  · rcases advance_next h with ⟨hp, rfl⟩ | ⟨_, rfl⟩
    · exact .inl ⟨ha, hb, hp, rfl⟩
    · exact .inr ⟨_, rfl⟩
  · exact .inr ⟨_, rfl⟩

theorem aluWrite_inside (ha : a.toNat < 8) (hb : b.toNat < 8) (hp : s.pc.toNat + m.length < 256) :
    aluWrite m f a b s = .next ((s.setReg ⟨a.toNat, ha⟩ (f (s.reg ⟨a.toNat, ha⟩) (s.reg ⟨b.toNat, hb⟩))).setPc
      (BitVec.ofNat 8 (s.pc.toNat + m.length))) := by
  rw [aluWrite, withRegisters_named ha hb, advance_inside hp]

/-- CMP writes 4, 2 or 1. -/
theorem compareFlags_cases (x y : Byte) :
    (y.toNat < x.toNat ∧ compareFlags x y = flagG) ∨ (x.toNat < y.toNat ∧ compareFlags x y = flagL) ∨
      (x.toNat = y.toNat ∧ compareFlags x y = flagE) := by
  rcases Nat.lt_trichotomy x.toNat y.toNat with h | h | h
  · exact .inr (.inl ⟨h, by rw [compareFlags, if_neg (by omega), if_pos h]⟩)
  · exact .inr (.inr ⟨h, by rw [compareFlags, if_neg (by omega), if_neg (by omega)]⟩)
  · exact .inl ⟨h, by rw [compareFlags, if_pos h]⟩

/-- The state an instruction leaves when none of its checks fails, with the bounds its checks give. -/
def Effect (i : Instr) (s t : State) : Prop :=
  match i with
  | .hlt => s.pc.toNat + 1 < 256 ∧ t = s.halt.setPc (BitVec.ofNat 8 (s.pc.toNat + 1))
  | .ret => s.sp.toNat < 255 ∧ t = (s.setPc (s.memRead s.sp)).setSp (BitVec.ofNat 8 (s.sp.toNat + 1))
  | .push a => ∃ ha : a.toNat < 8, 0 < s.sp.toNat ∧ s.pc.toNat + 2 < 256 ∧
      t = ((s.setSp (BitVec.ofNat 8 (s.sp.toNat - 1))).memWrite (BitVec.ofNat 8 (s.sp.toNat - 1))
        (s.reg ⟨a.toNat, ha⟩)).setPc (BitVec.ofNat 8 (s.pc.toNat + 2))
  | .pop a => ∃ ha : a.toNat < 8, s.sp.toNat < 255 ∧ s.pc.toNat + 2 < 256 ∧
      t = ((s.setReg ⟨a.toNat, ha⟩ (s.memRead s.sp)).setSp (BitVec.ofNat 8 (s.sp.toNat + 1))).setPc
        (BitVec.ofNat 8 (s.pc.toNat + 2))
  | .prn a => ∃ ha : a.toNat < 8, s.pc.toNat + 2 < 256 ∧
      t = (s.emit (s.reg ⟨a.toNat, ha⟩)).setPc (BitVec.ofNat 8 (s.pc.toNat + 2))
  | .call a => ∃ ha : a.toNat < 8, 0 < s.sp.toNat ∧ s.pc.toNat + 2 < 256 ∧
      t = ((s.setSp (BitVec.ofNat 8 (s.sp.toNat - 1))).memWrite (BitVec.ofNat 8 (s.sp.toNat - 1))
        (BitVec.ofNat 8 (s.pc.toNat + 2))).setPc (s.reg ⟨a.toNat, ha⟩)
  | .jmp a => ∃ ha : a.toNat < 8, t = s.setPc (s.reg ⟨a.toNat, ha⟩)
  | .jeq a =>
    (s.fl.getLsbD 0 = true ∧ ∃ ha : a.toNat < 8, t = s.setPc (s.reg ⟨a.toNat, ha⟩)) ∨
      (s.fl.getLsbD 0 = false ∧ s.pc.toNat + 2 < 256 ∧ t = s.setPc (BitVec.ofNat 8 (s.pc.toNat + 2)))
  | .jne a =>
    (s.fl.getLsbD 0 = false ∧ ∃ ha : a.toNat < 8, t = s.setPc (s.reg ⟨a.toNat, ha⟩)) ∨
      (s.fl.getLsbD 0 = true ∧ s.pc.toNat + 2 < 256 ∧ t = s.setPc (BitVec.ofNat 8 (s.pc.toNat + 2)))
  | .ldi a imm => ∃ ha : a.toNat < 8, s.pc.toNat + 3 < 256 ∧
      t = (s.setReg ⟨a.toNat, ha⟩ imm).setPc (BitVec.ofNat 8 (s.pc.toNat + 3))
  | .add a b => AluEffect sumByte a b
  | .mul a b => AluEffect productByte a b
  | .and a b => AluEffect (fun x y => x &&& y) a b
  | .or a b => AluEffect (fun x y => x ||| y) a b
  | .xor a b => AluEffect (fun x y => x ^^^ y) a b
  | .cmp a b => ∃ (ha : a.toNat < 8) (hb : b.toNat < 8), s.pc.toNat + 3 < 256 ∧
      t = (s.setFl (compareFlags (s.reg ⟨a.toNat, ha⟩) (s.reg ⟨b.toNat, hb⟩))).setPc
        (BitVec.ofNat 8 (s.pc.toNat + 3))
where
  /-- The common effect of the ALU instructions that write a register. -/
  AluEffect (f : Byte → Byte → Byte) (a b : Byte) : Prop :=
    ∃ (ha : a.toNat < 8) (hb : b.toNat < 8), s.pc.toNat + 3 < 256 ∧
      t = (s.setReg ⟨a.toNat, ha⟩ (f (s.reg ⟨a.toNat, ha⟩) (s.reg ⟨b.toNat, hb⟩))).setPc
        (BitVec.ofNat 8 (s.pc.toNat + 3))

/-- Everything an instruction can do when it answers a next state: its effect, or a fault and nothing else. -/
theorem exec_next {i : Instr} (h : exec i s = .next t) : Effect i s t ∨ ∃ x, t = s.withFault x := by
  have seq {m : Mnemonic} {p : State} (h : advance m s p = .next t) :
      (s.pc.toNat + m.length < 256 ∧ t = p.setPc (BitVec.ofNat 8 (s.pc.toNat + m.length))) ∨
        ∃ x, t = s.withFault x := (advance_next h).imp_right fun h => ⟨_, h.2⟩
  have alu {m : Mnemonic} {f : Byte → Byte → Byte} {a b : Byte} (hm : m.length = 3)
      (h : aluWrite m f a b s = .next t) : Effect.AluEffect s t f a b ∨ ∃ x, t = s.withFault x := by
    simpa [Effect.AluEffect, hm] using aluWrite_next h
  cases i with
  | hlt => exact seq (exec_hlt s ▸ h)
  | ret =>
    rcases withPoppedSp_next (exec_ret s ▸ h) with ⟨hs, h⟩ | ⟨_, rfl⟩
    · injection h with h
      exact .inl ⟨hs, h.symm⟩
    · exact .inr ⟨_, rfl⟩
  | push a =>
    rcases withRegister_next (exec_push a s ▸ h) with ⟨ha, h⟩ | ⟨_, rfl⟩
    · rcases withPushSlot_next h with ⟨hs, h⟩ | ⟨_, rfl⟩
      · exact (seq h).imp_left fun h => ⟨ha, hs, h⟩
      · exact .inr ⟨_, rfl⟩
    · exact .inr ⟨_, rfl⟩
  | pop a =>
    rcases withRegister_next (exec_pop a s ▸ h) with ⟨ha, h⟩ | ⟨_, rfl⟩
    · rcases withPoppedSp_next h with ⟨hs, h⟩ | ⟨_, rfl⟩
      · exact (seq h).imp_left fun h => ⟨ha, hs, h⟩
      · exact .inr ⟨_, rfl⟩
    · exact .inr ⟨_, rfl⟩
  | prn a =>
    rcases withRegister_next (exec_prn a s ▸ h) with ⟨ha, h⟩ | ⟨_, rfl⟩
    · exact (seq h).imp_left fun h => ⟨ha, h⟩
    · exact .inr ⟨_, rfl⟩
  | call a =>
    rcases withRegister_next (exec_call a s ▸ h) with ⟨ha, h⟩ | ⟨_, rfl⟩
    · rcases withPushSlot_next h with ⟨hs, h⟩ | ⟨_, rfl⟩
      · rcases withNextPc_next h with ⟨hp, h⟩ | ⟨_, rfl⟩
        · injection h with h
          exact .inl ⟨ha, hs, hp, h.symm⟩
        · exact .inr ⟨_, rfl⟩
      · exact .inr ⟨_, rfl⟩
    · exact .inr ⟨_, rfl⟩
  | jmp a => exact (jumpTo_next (exec_jmp a s ▸ h)).imp_right fun h => ⟨_, h.2⟩
  | jeq a =>
    rw [exec_jeq] at h
    split at h
    · next hf => exact (jumpTo_next h).imp (fun h => .inl ⟨hf, h⟩) fun h => ⟨_, h.2⟩
    · next hf => exact (seq h).imp_left fun h => .inr ⟨by simpa using hf, h⟩
  | jne a =>
    rw [exec_jne] at h
    split at h
    · next hf => exact (seq h).imp_left fun h => .inr ⟨hf, h⟩
    · next hf => exact (jumpTo_next h).imp (fun h => .inl ⟨by simpa using hf, h⟩) fun h => ⟨_, h.2⟩
  | ldi a imm =>
    rcases withRegister_next (exec_ldi a imm s ▸ h) with ⟨ha, h⟩ | ⟨_, rfl⟩
    · exact (seq h).imp_left fun h => ⟨ha, h⟩
    · exact .inr ⟨_, rfl⟩
  | add a b => exact alu rfl (exec_add a b s ▸ h)
  | mul a b => exact alu rfl (exec_mul a b s ▸ h)
  | and a b => exact alu rfl (exec_and a b s ▸ h)
  | or a b => exact alu rfl (exec_or a b s ▸ h)
  | xor a b => exact alu rfl (exec_xor a b s ▸ h)
  | cmp a b =>
    rcases withRegisters_next (exec_cmp a b s ▸ h) with ⟨ha, hb, h⟩ | ⟨_, _, _, rfl⟩
    · exact (seq h).imp_left fun h => ⟨ha, hb, h⟩
    · exact .inr ⟨_, rfl⟩

end Sys2Proof.Machine
end

