-- ==== Sys2Proof/Laws/Memory.lean ====
section
/-! SUPPORT. Memory: what reading after writing gives, and that every memory operation keeps the canonical form
(spec 20_memory.md R40 to R42; log 11). -/

namespace Sys2Proof.Machine.Memory

@[simp] theorem read_nil (x : Nat) : Memory.read x [] = 0 := rfl

@[simp] theorem read_cons (x a : Nat) (v : Byte) (m : Memory) :
    Memory.read x ((a, v) :: m) = if x = a then v else Memory.read x m := rfl

/-- A canonical memory from `lo` up lists nothing below `lo`. -/
theorem read_below {m : Memory} {lo x : Nat} (h : wfFrom lo m = true) (hx : x < lo) : m.read x = 0 := by
  induction m generalizing lo with
  | nil => rfl
  | cons c rest ih =>
    obtain ⟨a, v⟩ := c
    simp only [wfFrom, Bool.and_eq_true, decide_eq_true_eq] at h
    rw [read_cons, if_neg (by omega)]
    exact ih h.2 (by omega)

theorem wfFrom_mono {m : Memory} {lo lo' : Nat} (h : wfFrom lo m = true) (hle : lo' ≤ lo) : wfFrom lo' m = true := by
  cases m with
  | nil => rfl
  | cons c rest =>
    simp only [wfFrom, Bool.and_eq_true, decide_eq_true_eq] at h ⊢
    exact ⟨⟨⟨by omega, h.1.1.2⟩, h.1.2⟩, h.2⟩

theorem wfFrom_tail {m : Memory} {lo a : Nat} {v : Byte} (h : wfFrom lo ((a, v) :: m) = true) :
    wfFrom (a + 1) m = true := by
  simp only [wfFrom, Bool.and_eq_true] at h
  exact h.2

theorem wfFrom_cons {m : Memory} {lo a : Nat} {v : Byte} (hlo : lo ≤ a) (ha : a < Config.memSize)
    (h : wfFrom (a + 1) m = true) : wfFrom lo (Memory.cons a v m) = true := by
  unfold Memory.cons
  split
  · exact wfFrom_mono h (by omega)
  · simp_all [wfFrom]

theorem read_consCell {m : Memory} {a : Nat} {v : Byte} (x : Nat) (h : wfFrom (a + 1) m = true) :
    (Memory.cons a v m).read x = if x = a then v else m.read x := by
  unfold Memory.cons
  split
  · next hv =>
    split
    · next hx => rw [hx, read_below h (by omega), hv]; rfl
    · rfl
  · rw [read_cons]

/-- A write keeps the canonical form. -/
theorem wfFrom_write {m : Memory} {lo a : Nat} {v : Byte} (h : wfFrom lo m = true) (hlo : lo ≤ a)
    (ha : a < Config.memSize) : wfFrom lo (m.write a v) = true := by
  induction m generalizing lo with
  | nil => exact wfFrom_cons hlo ha rfl
  | cons c rest ih =>
    obtain ⟨b, w⟩ := c
    have h' := h
    simp only [wfFrom, Bool.and_eq_true, decide_eq_true_eq] at h'
    unfold Memory.write
    split
    · refine wfFrom_cons hlo ha ?_
      simp only [wfFrom, Bool.and_eq_true, decide_eq_true_eq]
      exact ⟨⟨⟨by omega, h'.1.1.2⟩, h'.1.2⟩, h'.2⟩
    · split
      · next e => exact wfFrom_cons hlo ha (e ▸ h'.2)
      · simp only [wfFrom, Bool.and_eq_true, decide_eq_true_eq]
        exact ⟨h'.1, ih h'.2 (by omega)⟩

/-- What a write leaves: the byte stored at its address, every other cell as before. -/
theorem read_write {m : Memory} {lo a : Nat} {v : Byte} (x : Nat) (h : wfFrom lo m = true) :
    (m.write a v).read x = if x = a then v else m.read x := by
  induction m generalizing lo with
  | nil => exact read_consCell x rfl
  | cons c rest ih =>
    obtain ⟨b, w⟩ := c
    have h' := h
    simp only [wfFrom, Bool.and_eq_true, decide_eq_true_eq] at h'
    unfold Memory.write
    split
    · refine read_consCell x ?_
      simp only [wfFrom, Bool.and_eq_true, decide_eq_true_eq]
      exact ⟨⟨⟨by omega, h'.1.1.2⟩, h'.1.2⟩, h'.2⟩
    · split
      · next e =>
        subst e
        rw [read_consCell x h'.2, read_cons]
        split <;> rfl
      · next hne =>
        rw [read_cons, read_cons, ih h'.2]
        by_cases hx : x = b
        · simp [hx, Ne.symm hne]
        · simp [hx]

theorem wf_write {m : Memory} (a v : Byte) (h : m.wf = true) : (m.write a.toNat v).wf = true :=
  wfFrom_write h (Nat.zero_le _) (by have := a.isLt; simpa [Config.memSize] using this)

theorem read_write_same {m : Memory} (a : Nat) (v : Byte) (h : m.wf = true) : (m.write a v).read a = v := by
  rw [read_write a h, if_pos rfl]

theorem read_write_other {m : Memory} {a x : Nat} (v : Byte) (h : m.wf = true) (hx : x ≠ a) :
    (m.write a v).read x = m.read x := by
  rw [read_write x h, if_neg hx]

/-- The memory of an image that fits is canonical. -/
theorem wfFrom_ofImage {image : List Byte} {addr : Nat} (h : addr + image.length ≤ Config.memSize) :
    wfFrom addr (Memory.ofImage addr image) = true := by
  induction image generalizing addr with
  | nil => rfl
  | cons v rest ih =>
    simp only [List.length_cons] at h
    exact wfFrom_cons (Nat.le_refl _) (by omega) (ih (by omega))

theorem wf_reset : State.reset.mem.wf = true := rfl

/-- An image fits if it has at most 256 bytes. -/
theorem imageFits_iff {image : List Byte} : imageFits image = true ↔ image.length ≤ 256 := decide_eq_true_iff

theorem loadProgram_fits {image : List Byte} (h : image.length ≤ 256) :
    loadProgram image = .ok { State.reset with mem := Memory.ofImage 0 image } := if_pos (imageFits_iff.mpr h)

theorem loadProgram_tooLong {image : List Byte} (h : 256 < image.length) :
    loadProgram image = .error (.imageTooLong image.length) :=
  if_neg fun hf => absurd (imageFits_iff.mp hf) (Nat.not_le.mpr h)

end Sys2Proof.Machine.Memory
end

