-- ==== Sys2Proof/Laws/Ports.lean ====
section
/-! SUPPORT. The step port and the run port in terms of the step, and the runs of live steps the statements speak of
(spec 10_state.md R33, 40_fetch_decode_execute.md R99 to R101). -/

namespace Sys2Proof.Machine

open Sys2Proof.Safety

variable {map : OpcodeMap} {s t : State} {f : Fault} {n : Nat}

theorem outcome_faulted (h : s.fault = some f) : s.outcome = .faulted f := by simp [State.outcome, h]

theorem outcome_halted (h : s.fault = none) (hr : s.running = false) : s.outcome = .halted := by
  simp [State.outcome, h, hr]

theorem outcome_live (h : Live s) : s.outcome = .running := by simp [State.outcome, h.1, h.2]

/-- The step port of a state that has a next state: that state with its outcome. -/
theorem stepPortWith_next (h : stepWith map s = .next t) : stepPortWith map s = .ok (t, t.outcome) := by
  simp [stepPortWith, h]

theorem stepPortWith_faulted (h : s.fault = some f) : stepPortWith map s = .ok (s, .faulted f) := by
  simp [stepPortWith, stepWith, h]

theorem runWith_faulted (h : stepPortWith map s = .ok (t, .faulted f)) : runWith map (n + 1) s = .ok (t, .faulted f) := by
  simp [runWith, h]

theorem runWith_halted (h : stepPortWith map s = .ok (t, .halted)) : runWith map (n + 1) s = .ok (t, .halted) := by
  simp [runWith, h]

/-- The run goes on exactly after a step whose outcome is running. -/
theorem runWith_running (h : stepPortWith map s = .ok (t, .running)) : runWith map (n + 1) s = runWith map n t := by
  simp [runWith, h]

@[simp] theorem liveSteps_zero : LiveSteps map 0 s t ↔ s = t := Iff.rfl

@[simp] theorem liveSteps_succ :
    LiveSteps map (n + 1) s t ↔ Live s ∧ ∃ u, stepWith map s = .next u ∧ LiveSteps map n u t := Iff.rfl

end Sys2Proof.Machine
end

