-- ==== Sys2Proof/Tests/Slice0.lean ====
section
/-! SUPPORT. The model's own tests. Every expected result is from spec/: the vectors of 95_test_vectors.md, named in the
comment before each test (S, A to F), and the encodings of 30_encoding.md. The witnesses at the end meet the hypotheses
of the statements, clause by clause at the ends of their ranges. -/

namespace Sys2Proof.Tests

open Sys2Proof Sys2Proof.Machine Sys2Proof.Safety

/-- The reset state with `bytes` at `pc`, pc there, and then changed by `f`. -/
def at_ (pc : Byte) (bytes : List Byte) (f : State → State := id) : State :=
  f { State.reset with pc := pc, mem := Memory.ofImage pc.toNat bytes }

/-- The next state of an outcome, if it has one. -/
def nextOf (o : Host.Outcome State Fault Refusal) : Option State :=
  match o with
  | .next t => some t
  | .fault _ | .refused _ => none

/-- The state one step leaves, if it leaves one. -/
def after (s : State) : Option State := nextOf (step s)

/-- A next state with the property `p`, from a check that evaluates. -/
theorem next_with {o : Host.Outcome State Fault Refusal} (p : State → Bool) (h : (nextOf o).any p = true) :
    ∃ t, o = .next t ∧ p t = true := by
  cases o with
  | next t => exact ⟨t, rfl, h⟩
  | fault f => contradiction
  | refused r => contradiction

theorem next_exists {o : Host.Outcome State Fault Refusal} (h : (nextOf o).isSome = true) : ∃ t, o = .next t := by
  cases o with
  | next t => exact ⟨t, rfl⟩
  | fault f => contradiction
  | refused r => contradiction

theorem next_getD {o : Host.Outcome State Fault Refusal} (h : (nextOf o).isSome = true) :
    o = .next ((nextOf o).getD State.reset) := by
  cases o with
  | next t => rfl
  | fault f => contradiction
  | refused r => contradiction

/-- No fault recorded, as a check. -/
def clean (t : State) : Bool := t.fault.isNone

/-- The fault one step records. -/
def faultAfter (s : State) : Option Fault := (after s).bind State.fault

def set (r : Fin 8) (v : Byte) (s : State) : State := s.setReg r v
def setSp (v : Byte) (s : State) : State := { s with sp := v }
def setFl (v : Byte) (s : State) : State := { s with fl := v }
def cell (addr v : Byte) (s : State) : State := s.memWrite addr v

/-! ## Well-formedness refuses an ill-formed term of each check -/

theorem test_wellFormed_refuses_registerA : Instr.wellFormed (.ldi 8 0) = false := by decide
theorem test_wellFormed_refuses_registerB : Instr.wellFormed (.add 0 9) = false := by decide
theorem test_wellFormed_allows_immediate : Instr.wellFormed (.ldi 7 255) = true := by decide
theorem test_imageFits_refuses_257 : imageFits (List.replicate 257 0x01) = false := by decide +kernel
theorem test_legal_refuses_shared_byte : ¬OpcodeMap.Legal (fun m => if m = .mul then 0xA0 else defaultOpcodeMap m) := by
  decide
theorem test_legal_refuses_wrong_count : ¬OpcodeMap.Legal (fun m => if m = .hlt then 0x41 else defaultOpcodeMap m) := by
  decide
theorem test_legal_refuses_wrong_alu : ¬OpcodeMap.Legal (fun m => if m = .mul then 0x80 else defaultOpcodeMap m) := by
  decide
theorem test_legal_refuses_wrong_p : ¬OpcodeMap.Legal (fun m => if m = .hlt then 0x12 else defaultOpcodeMap m) := by
  decide

/-! ## Decoding: each constructor's word, bit by bit from 30_encoding.md R62 to R66 -/

theorem test_decode_hlt : decode opcodeMap 0b00000001 0 0 = .ok .hlt := by rfl
theorem test_decode_ret : decode opcodeMap 0b00010001 0 0 = .ok .ret := by rfl
theorem test_decode_push : decode opcodeMap 0b01000101 0b00000111 0 = .ok (.push 7) := by rfl
theorem test_decode_pop : decode opcodeMap 0b01000110 0b00000010 0 = .ok (.pop 2) := by rfl
theorem test_decode_prn : decode opcodeMap 0b01000111 0b00000100 0 = .ok (.prn 4) := by rfl
theorem test_decode_call : decode opcodeMap 0b01010000 0b00000001 0 = .ok (.call 1) := by rfl
theorem test_decode_jmp : decode opcodeMap 0b01010100 0b00000010 0 = .ok (.jmp 2) := by rfl
theorem test_decode_jeq : decode opcodeMap 0b01010101 0b00000011 0 = .ok (.jeq 3) := by rfl
theorem test_decode_jne : decode opcodeMap 0b01010110 0b00000011 0 = .ok (.jne 3) := by rfl
theorem test_decode_ldi : decode opcodeMap 0b10000010 0b00000011 0b11001000 = .ok (.ldi 3 200) := by rfl
theorem test_decode_add : decode opcodeMap 0b10100000 0b00000000 0b00000001 = .ok (.add 0 1) := by rfl
theorem test_decode_mul : decode opcodeMap 0b10100010 0b00000010 0b00000011 = .ok (.mul 2 3) := by rfl
theorem test_decode_cmp : decode opcodeMap 0b10100111 0b00000010 0b00000001 = .ok (.cmp 2 1) := by rfl
theorem test_decode_and : decode opcodeMap 0b10101000 0b00000000 0b00000100 = .ok (.and 0 4) := by rfl
theorem test_decode_or : decode opcodeMap 0b10101010 0b00000000 0b00000100 = .ok (.or 0 4) := by rfl
theorem test_decode_xor : decode opcodeMap 0b10101011 0b00000101 0b00000001 = .ok (.xor 5 1) := by rfl

/-- A8, A9: an undefined byte with bit 5 set, and 0x00. -/
theorem test_decode_undefined : decode opcodeMap 0xA1 0 0 = .error (.unknownOpcode 0xA1) ∧
    decode opcodeMap 0x00 0 0 = .error (.unknownOpcode 0x00) := ⟨rfl, rfl⟩

/-- A register index above 7 is encodable (30_encoding.md R65). -/
theorem test_decode_registerAbove7 : decode opcodeMap 0b01010100 0b00001000 0 = .ok (.jmp 8) := by rfl

/-- The first byte is the low byte of a table word. -/
theorem test_tableWord : decodeTableWord 24 0xC80382 = some (.ldi 3 200) ∧ decodeTableWord 8 0x45 = some (.push 0) :=
  ⟨rfl, rfl⟩

/-! ## One step: fetch and decode -/

/-- 60_exceptions.md R170: the codes of the three fault kinds. -/
theorem test_fault_codes : [Fault.unknownOpcode 0 0, .outOfBoundsAccess .memory 256, .unsupportedALUOperation 0 0].map
    Fault.code = [1, 2, 3] := by decide

/-- A1. -/
theorem test_hlt_at_253 : (after (at_ 253 [0x01])).map (fun t => (t.pc, t.running)) = some (254, false) := by decide
/-- A2, A3. -/
theorem test_fetch_past_the_top : faultAfter (at_ 254 [0x01]) = some (.outOfBoundsAccess .memory 256) ∧
    faultAfter (at_ 255 [0x01]) = some (.outOfBoundsAccess .memory 256) := by decide
/-- A4: nothing is committed. -/
theorem test_ldi_at_253 : (after (at_ 253 [0x82, 0x00, 0x05])).map (fun t => (t.fault, t.regs[0], t.pc)) =
    some (some (.outOfBoundsAccess .memory 256), 0, 253) := by decide
/-- A6: the register check comes before the advance. -/
theorem test_register_before_advance :
    faultAfter (at_ 253 [0xA0, 0x09, 0x01]) = some (.outOfBoundsAccess .register 9) := by decide
/-- A8. -/
theorem test_undefined_byte : faultAfter (at_ 0 [0xA1]) = some (.unknownOpcode 0 0xA1) := by decide
/-- A10. -/
theorem test_undefined_byte_address : faultAfter (at_ 7 [0x02]) = some (.unknownOpcode 7 0x02) := by decide
/-- A11. -/
theorem test_halted_step : stepPortWith opcodeMap { State.reset with running := false } =
    .ok ({ State.reset with running := false }, .halted) := rfl
/-- A12. -/
theorem test_faulted_step : stepPortWith opcodeMap { State.reset with fault := some (.unknownOpcode 0 0xFF) } =
    .ok ({ State.reset with fault := some (.unknownOpcode 0 0xFF) }, .faulted (.unknownOpcode 0 0xFF)) := rfl

/-! ## One step: control transfer -/

/-- B1. -/
theorem test_call_full_stack : faultAfter (at_ 0 [0x50, 0x01] (set 1 40 ∘ setSp 0)) =
    some (.outOfBoundsAccess .memory (-1)) := by decide
/-- B2. -/
theorem test_call_at_253 : (after (at_ 253 [0x50, 0x01] (set 1 40))).map (fun t => (t.sp, t.mem.read 243, t.pc)) =
    some (243, 255, 40) := by decide
/-- B3. -/
theorem test_ret_at_the_end : faultAfter (at_ 0 [0x11] (setSp 255)) = some (.outOfBoundsAccess .memory 256) := by decide
/-- R141's example. -/
theorem test_ret_pops : (after (at_ 0 [0x11] (cell 243 5 ∘ setSp 243))).map (fun t => (t.pc, t.sp)) = some (5, 244) := by
  decide
/-- B5. -/
theorem test_jmp : (after (at_ 0 [0x54, 0x02] (set 2 255))).map State.pc = some 255 := by decide
/-- B6. -/
theorem test_jmp_bad_register : faultAfter (at_ 0 [0x54, 0x08]) = some (.outOfBoundsAccess .register 8) := by decide
/-- B7 and B8: the index is checked only when the jump is taken. -/
theorem test_jeq_bad_register : (after (at_ 0 [0x55, 0x09])).map State.pc = some 2 ∧
    faultAfter (at_ 0 [0x55, 0x09] (setFl 1)) = some (.outOfBoundsAccess .register 9) := by decide
/-- B9 and B11. -/
theorem test_jeq : (after (at_ 0 [0x55, 0x03] (set 3 30 ∘ setFl 1))).map State.pc = some 30 ∧
    (after (at_ 0 [0x55, 0x03] (set 3 30 ∘ setFl 4))).map State.pc = some 2 := by decide
/-- B12 and B13. -/
theorem test_jne : (after (at_ 0 [0x56, 0x03] (set 3 30))).map State.pc = some 30 ∧
    (after (at_ 0 [0x56, 0x03] (set 3 30 ∘ setFl 1))).map State.pc = some 2 := by decide
/-- B14. -/
theorem test_jne_bad_register : faultAfter (at_ 0 [0x56, 0x08]) = some (.outOfBoundsAccess .register 8) := by decide

/-! ## One step: ALU -/

/-- C1: the carry is lost, fl is kept, and the source is the destination. -/
theorem test_add_wraps : (after (at_ 0 [0xA0, 0x00, 0x00] (set 0 0x80 ∘ setFl 2))).map
    (fun t => (t.regs[0], t.pc, t.fl)) = some (0, 3, 2) := by decide
/-- S6. -/
theorem test_add : (after (at_ 0 [0xA0, 0x00, 0x01] (set 0 250 ∘ set 1 10))).map (fun t => t.regs[0]) = some 4 := by
  decide
/-- C3. -/
theorem test_mul_wraps : (after (at_ 0 [0xA2, 0x00, 0x01] (set 0 255 ∘ set 1 255))).map (fun t => t.regs[0]) =
    some 1 := by decide
/-- R112's example. -/
theorem test_mul : (after (at_ 0 [0xA2, 0x00, 0x01] (set 0 6 ∘ set 1 7))).map (fun t => (t.regs[0], t.regs[1])) =
    some (42, 7) := by decide
/-- C6. -/
theorem test_and : (after (at_ 0 [0xA8, 0x00, 0x01] (set 0 0xF0 ∘ set 1 0x3C))).map (fun t => t.regs[0]) =
    some 0x30 := by decide
/-- C7. -/
theorem test_or : (after (at_ 0 [0xAA, 0x00, 0x01] (set 0 0xF0 ∘ set 1 0x0F))).map (fun t => t.regs[0]) =
    some 0xFF := by decide
/-- C8. -/
theorem test_xor : (after (at_ 0 [0xAB, 0x00, 0x01] (set 0 0xFF ∘ set 1 0x0F))).map (fun t => t.regs[0]) =
    some 0xF0 := by decide
/-- C10 and C11: unsigned, and overwritten. -/
theorem test_cmp : (after (at_ 0 [0xA7, 0x00, 0x01] (set 0 0x80 ∘ set 1 0x7F))).map (fun t => (t.fl, t.pc)) =
    some (4, 3) ∧
    (after (at_ 0 [0xA7, 0x00, 0x01] (set 0 0x7F ∘ set 1 0x80 ∘ setFl 4))).map State.fl = some 2 := by decide
/-- S10. -/
theorem test_cmp_equal : (after (at_ 0 [0xA7, 0x02, 0x02] (set 2 200 ∘ setFl 2))).map State.fl = some 1 := by decide
/-- C12, C14: A is checked before B. -/
theorem test_alu_bad_registers : faultAfter (at_ 0 [0xA7, 0x00, 0x09]) = some (.outOfBoundsAccess .register 9) ∧
    faultAfter (at_ 0 [0xA0, 0x09, 0x0A]) = some (.outOfBoundsAccess .register 9) := by decide

/-! ## One step: load and stack -/

/-- S1. -/
theorem test_ldi : (after (at_ 0 [0x82, 0x03, 0xC8])).map (fun t => (t.regs[3], t.pc)) = some (200, 3) := by decide
/-- D1: r7 is not sp. -/
theorem test_ldi_r7 : (after (at_ 0 [0x82, 0x07, 0x09])).map (fun t => (t.regs[7], t.sp)) = some (9, 244) := by decide
/-- D3. -/
theorem test_push_r7 : (after (at_ 0 [0x45, 0x07])).map (fun t => (t.sp, t.mem.read 243, t.pc)) =
    some (243, 244, 2) := by decide
/-- D5: the register check is first. -/
theorem test_push_checks : faultAfter (at_ 0 [0x45, 0x08] (setSp 0)) = some (.outOfBoundsAccess .register 8) ∧
    faultAfter (at_ 0 [0x45, 0x00] (setSp 0)) = some (.outOfBoundsAccess .memory (-1)) := by decide
/-- D8. -/
theorem test_pop : (after (at_ 0 [0x46, 0x00] (cell 254 0x33 ∘ setSp 254))).map (fun t => (t.regs[0], t.sp, t.pc)) =
    some (0x33, 255, 2) := by decide
/-- D7. -/
theorem test_pop_at_the_end : faultAfter (at_ 0 [0x46, 0x00] (setSp 255)) = some (.outOfBoundsAccess .memory 256) := by
  decide
/-- D10: a PUSH over its own operand byte runs as fetched. -/
theorem test_push_over_itself : (after (at_ 10 [0x45, 0x00] (set 0 0x47 ∘ setSp 12))).map
    (fun t => (t.sp, t.mem.read 11, t.pc)) = some (11, 0x47, 12) := by decide

/-! ## One step: system and output -/

/-- E1. -/
theorem test_hlt : (after (at_ 0 [0x01])).map (fun t => (t.running, t.pc, t.outcome)) = some (false, 1, .halted) := by
  decide
/-- E2. -/
theorem test_prn : (after (at_ 0 [0x47, 0x04] (set 4 200))).map (fun t => (t.out, t.pc)) = some ([200], 2) := by decide
/-- E3. -/
theorem test_prn_bad_register : (after (at_ 0 [0x47, 0x08])).map (fun t => (t.fault, t.out)) =
    some (some (.outOfBoundsAccess .register 8), []) := by decide

/-! ## Load -/

/-- F1. -/
theorem test_load_257 : loadProgram (List.replicate 257 0x01) = .error (.imageTooLong 257) := by
  have h : (List.replicate 257 (0x01 : Byte)).length = 257 := List.length_replicate
  rw [Memory.loadProgram_tooLong (by rw [h]; decide), h]
/-- F3: the first step of the machine as reset leaves it. -/
theorem test_first_step_after_reset : after State.reset =
    some { State.reset with fault := some (.unknownOpcode 0 0) } := by decide

/-! ## Witnesses: concrete states and operands that meet the hypotheses of each statement, clause by clause -/

theorem witness_LoadProgramBuildsTheResetState :
    (List.replicate 256 (0 : Byte)).length ≤ 256 ∧ 256 < (List.replicate 257 (0 : Byte)).length := by
  rw [List.length_replicate, List.length_replicate]
  decide

theorem witness_DecodeUndoesEncode : defaultOpcodeMap.Legal := by decide

theorem witness_EncodeUndoesDecode : decode defaultOpcodeMap 0x11 0xFF 0xFF = .ok .ret := rfl

theorem witness_LengthComesFromTheFirstByte :
    defaultOpcodeMap.Legal ∧ decode defaultOpcodeMap 0x82 3 200 = .ok (.ldi 3 200) := ⟨by decide, rfl⟩

theorem witness_UnusedOperandBytesAreIgnored :
    defaultOpcodeMap.Legal ∧ (opcodeN 0x01).toNat = 0 ∧ (opcodeN 0x45).toNat = 1 := by decide

theorem witness_OperandCountThreeIsUndefined : defaultOpcodeMap.Legal ∧ 0xC0 ≤ (0xC0 : Byte).toNat := by decide

theorem witness_TerminalStateStaysAsItIs :
    (at_ 0 [0x01] fun s => { s with fault := some (.unknownOpcode 0 0) }).fault = some (.unknownOpcode 0 0) ∧
    (at_ 0 [0x01] State.halt).fault = none ∧ (at_ 0 [0x01] State.halt).running = false := by decide

theorem witness_FetchPastTheTopFaults :
    (Live (at_ 254 [0x01]) ∧ 253 < (at_ 254 [0x01]).pc.toNat) ∧ (Live (at_ 255 [0x01]) ∧ 253 < (at_ 255 [0x01]).pc.toNat) ∧
    Live (at_ 253 [0x01]) ∧ defaultOpcodeMap.Legal ∧ (at_ 253 [0x01]).pc.toNat = 253 ∧
      (at_ 253 [0x01]).mem.read 253 = defaultOpcodeMap .hlt := by decide

theorem witness_StepRunsTheDecodedInstruction :
    Live (at_ 253 [0x47, 0x00]) ∧ Fetches opcodeMap (at_ 253 [0x47, 0x00]) (.prn 0) := ⟨by decide, by decide, rfl⟩

theorem witness_UndefinedOpcodeFaults :
    Live (at_ 253 [0xA1]) ∧ (at_ 253 [0xA1]).pc.toNat ≤ 253 ∧
      ∀ m, defaultOpcodeMap m ≠ (at_ 253 [0xA1]).mem.read (at_ 253 [0xA1]).pc.toNat :=
  ⟨by decide, by decide, fun m => by cases m <;> decide⟩

theorem witness_StepReportsTheFirstFailingCheck : Live State.reset := by decide

theorem witness_FaultCommitsNothing : State.reset.fault = none ∧
    ∃ t, stepWith opcodeMap State.reset = .next t ∧ decide (t.fault = some (.unknownOpcode 0 0)) = true :=
  ⟨rfl, next_with _ (by decide)⟩

/-- The last address a LDI advances from, the first it cannot advance from, and an instruction that writes pc. -/
theorem witness_AdvanceFollowsTheOpcodeBits : defaultOpcodeMap.Legal ∧
    (Live (at_ 252 [0x82, 7, 1]) ∧ Fetches defaultOpcodeMap (at_ 252 [0x82, 7, 1]) (.ldi 7 1) ∧
      opcodeP ((at_ 252 [0x82, 7, 1]).mem.read 252) = false ∧
      ∃ t, stepWith defaultOpcodeMap (at_ 252 [0x82, 7, 1]) = .next t ∧ clean t = true) ∧
    (Live (at_ 253 [0x82, 7, 1]) ∧ Fetches defaultOpcodeMap (at_ 253 [0x82, 7, 1]) (.ldi 7 1) ∧
      255 < 253 + 1 + (opcodeN ((at_ 253 [0x82, 7, 1]).mem.read 253)).toNat ∧
      stackFault (.ldi 7 1) (at_ 253 [0x82, 7, 1]) = none ∧
      ∃ t, stepWith defaultOpcodeMap (at_ 253 [0x82, 7, 1]) = .next t) ∧
    (Live (at_ 0 [0x54, 2]) ∧ Fetches defaultOpcodeMap (at_ 0 [0x54, 2]) (.jmp 2) ∧
      opcodeP ((at_ 0 [0x54, 2]).mem.read 0) = true ∧ ∃ t, stepWith defaultOpcodeMap (at_ 0 [0x54, 2]) = .next t) :=
  ⟨by decide, ⟨by decide, ⟨by decide, rfl⟩, by decide, next_with _ (by decide)⟩,
    ⟨by decide, ⟨by decide, rfl⟩, by decide, by decide, next_exists (by decide)⟩, ⟨by decide, ⟨by decide, rfl⟩, by decide, next_exists (by decide)⟩⟩

theorem witness_NetPcChangeOfEachInstruction : (at_ 252 []).fault = none ∧
    ∃ t, exec (.add 7 0) (at_ 252 []) = .next t ∧ clean t = true := ⟨rfl, next_with _ (by decide)⟩

theorem witness_StepOutcomeIsRunningHaltedOrFaulted :
    (Live State.reset ∧ firstFault opcodeMap State.reset = some (.unknownOpcode 0 0)) ∧
    (Live (at_ 253 [0x01]) ∧ firstFault opcodeMap (at_ 253 [0x01]) = none ∧ Fetches opcodeMap (at_ 253 [0x01]) .hlt) ∧
    (Live (at_ 0 [0x47, 7]) ∧ firstFault opcodeMap (at_ 0 [0x47, 7]) = none ∧
      Fetches opcodeMap (at_ 0 [0x47, 7]) (.prn 7)) :=
  ⟨by decide, ⟨by decide, by decide, by decide, rfl⟩, ⟨by decide, by decide, by decide, rfl⟩⟩

/-- A live state whose run ends halted, one whose run ends faulted, and fuel beyond the end. -/
theorem witness_RunEndsAtTheFirstTerminalState : Live (at_ 0 [0x01]) ∧ Live State.reset ∧
    (runWith opcodeMap 1 (at_ 0 [0x01])).toOption.map Prod.snd = some .halted ∧
    (runWith opcodeMap 1 State.reset).toOption.map Prod.snd = some (.faulted (.unknownOpcode 0 0)) ∧
    (runWith opcodeMap 0 State.reset).toOption.map Prod.snd = some .outOfFuel ∧
    (State.reset.withFault (.unknownOpcode 0 0)).fault = some (.unknownOpcode 0 0) ∧
    (at_ 0 []).halt.fault = none ∧ (at_ 0 []).halt.running = false := by decide

theorem witness_PlacedWordIsTheNextInstruction : (at_ 253 [0xFF]).mem.wf = true ∧ (at_ 253 [0xFF]).pc.toNat ≤ 253 ∧
    decodeTableWord 16 0x0747 = some (.prn 7) := ⟨by decide, by decide, rfl⟩

/-- ADD, MUL, AND, OR and XOR: each clause of `AluWriteRule` at the ends of its ranges. -/
theorem witness_AluWriteRule : 7 < (8 : Byte).toNat ∧ ((7 : Byte).toNat < 8 ∧ 7 < (8 : Byte).toNat) ∧
    ((7 : Byte).toNat < 8 ∧ (at_ 253 []).pc.toNat = 253) ∧ (at_ 252 []).pc.toNat ≤ 252 := by decide

theorem witness_CmpWritesExactlyOneFlag : (at_ 253 []).pc.toNat = 253 ∧ (at_ 252 []).pc.toNat ≤ 252 ∧
    (at_ 252 []).regs[7].toNat > (at_ 252 []).regs[0].toNat ∧ (at_ 252 []).regs[0].toNat < (at_ 252 []).regs[7].toNat ∧
    (at_ 252 []).regs[0].toNat = (at_ 252 []).regs[1].toNat := by decide

theorem witness_LdiWritesTheImmediate : 7 < (8 : Byte).toNat ∧ (7 : Byte).toNat < 8 ∧ (at_ 253 []).pc.toNat = 253 ∧
    (at_ 252 []).pc.toNat ≤ 252 := by decide

/-- PUSH and CALL: a register above 7, a full stack, and the last slot from the last address. -/
theorem witness_PushStoresBelowTheStackPointer : (at_ 253 [] (setSp 1)).mem.wf = true ∧ 7 < (8 : Byte).toNat ∧
    (7 : Byte).toNat < 8 ∧ (at_ 0 [] (setSp 0)).sp.toNat = 0 ∧ 1 ≤ (at_ 253 [] (setSp 1)).sp.toNat ∧
    (at_ 253 [] (setSp 1)).pc.toNat ≤ 253 := by decide

theorem witness_CallStoresTheReturnAddress : (at_ 253 [0x50, 7] (setSp 1)).mem.wf = true ∧ 7 < (8 : Byte).toNat ∧
    (7 : Byte).toNat < 8 ∧ (at_ 0 [0x50, 7] (setSp 0)).sp.toNat = 0 ∧ 1 ≤ (at_ 253 [0x50, 7] (setSp 1)).sp.toNat ∧
    (at_ 253 [0x50, 7] (setSp 1)).pc.toNat ≤ 253 := by decide

theorem witness_PopReadsAtTheStackPointer : 7 < (8 : Byte).toNat ∧ (7 : Byte).toNat < 8 ∧
    (at_ 0 [] (setSp 255)).sp.toNat = 255 ∧ (at_ 253 [] (setSp 254)).sp.toNat ≤ 254 ∧
    (at_ 253 [] (setSp 254)).pc.toNat ≤ 253 := by decide

theorem witness_RetPopsTheProgramCounter : (at_ 0 [0x11] (setSp 255)).sp.toNat = 255 ∧
    (at_ 0 [0x11] (setSp 254)).sp.toNat ≤ 254 := by decide

theorem witness_JmpJumpsToTheRegister : 7 < (8 : Byte).toNat ∧ (7 : Byte).toNat < 8 := by decide

theorem witness_JeqJumpsIfEqualIsSet : (at_ 253 [] (setFl 1)).fl.getLsbD 0 = true ∧ 7 < (8 : Byte).toNat ∧
    (7 : Byte).toNat < 8 ∧ (at_ 253 [] (setFl 4)).fl.getLsbD 0 = false ∧ (at_ 253 [] (setFl 4)).pc.toNat ≤ 253 := by
  decide

theorem witness_JneJumpsIfEqualIsClear : (at_ 253 []).fl.getLsbD 0 = false ∧ 7 < (8 : Byte).toNat ∧
    (7 : Byte).toNat < 8 ∧ (at_ 253 [] (setFl 1)).fl.getLsbD 0 = true ∧ (at_ 253 [] (setFl 1)).pc.toNat ≤ 253 := by
  decide

theorem witness_HltStopsTheCore : (at_ 253 [0x01]).pc.toNat ≤ 253 ∧
    (Live (at_ 254 [0x01]) ∧ 253 < (at_ 254 [0x01]).pc.toNat) ∧ (at_ 253 [0x01]).fault = none ∧
    ∃ t, exec .hlt (at_ 253 [0x01]) = .next t ∧ clean t = true := ⟨by decide, by decide, rfl, next_with _ (by decide)⟩

theorem witness_PrnAppendsTheRegister : 7 < (8 : Byte).toNat ∧ (7 : Byte).toNat < 8 ∧ (at_ 253 []).pc.toNat ≤ 253 := by
  decide

theorem witness_RegistersKeptButTheDestination : (∃ t, exec (.pop 7) (at_ 0 []) = .next t) ∧
    (6 : Fin 8).val ∉ writtenRegisters (.pop 7) := ⟨next_exists (by decide), by decide⟩

theorem witness_FlagsWrittenOnlyByCmp : (at_ 0 []).fault = none ∧ (∃ t, exec (.add 0 7) (at_ 0 []) = .next t) ∧
    (∀ a b, Instr.add 0 7 ≠ .cmp a b) ∧ ∃ t, exec (.cmp 0 7) (at_ 0 []) = .next t ∧ clean t = true :=
  ⟨rfl, next_exists (by decide), nofun, next_with _ (by decide)⟩

theorem witness_StackPointerMovesByOneOrNot : (at_ 0 [] (setSp 1)).fault = none ∧ usesStack (.prn 0) = false ∧
    (∃ t, exec (.prn 0) (at_ 0 []) = .next t) ∧ (∃ t, exec (.push 8) (at_ 0 []) = .next t ∧ (!clean t) = true) ∧
    (∃ t, exec (.push 0) (at_ 0 [] (setSp 1)) = .next t ∧ clean t = true) ∧
    (∃ t, exec (.call 0) (at_ 0 [] (setSp 1)) = .next t ∧ clean t = true) ∧
    (∃ t, exec .ret (at_ 0 [] (setSp 254)) = .next t ∧ clean t = true) ∧
    ∃ t, exec (.pop 0) (at_ 0 [] (setSp 254)) = .next t ∧ clean t = true :=
  ⟨rfl, rfl, next_exists (by decide), next_with _ (by decide), next_with _ (by decide), next_with _ (by decide),
    next_with _ (by decide), next_with _ (by decide)⟩

theorem witness_MemoryKeptButTheStackSlot : (at_ 0 [] (setSp 1)).mem.wf = true ∧
    (∃ t, exec (.ldi 0 1) (at_ 0 []) = .next t) ∧ (∀ a, Instr.ldi 0 1 ≠ .push a ∧ Instr.ldi 0 1 ≠ .call a) ∧
    (∃ t, exec (.push 7) (at_ 0 [] (setSp 1)) = .next t) ∧ ((1 : Nat) : Int) ≠ ((at_ 0 [] (setSp 1)).sp.toNat : Int) - 1 :=
  ⟨by decide, next_exists (by decide), fun _ => ⟨nofun, nofun⟩, next_exists (by decide), by decide⟩

theorem witness_OutputWrittenOnlyByPrn : (at_ 0 []).fault = none ∧ (∃ t, exec (.jmp 0) (at_ 0 []) = .next t) ∧
    (∀ a, Instr.jmp 0 ≠ .prn a) ∧ (∃ t, exec (.prn 8) (at_ 0 []) = .next t ∧ (!clean t) = true) ∧
    ∃ t, exec (.prn 7) (at_ 0 []) = .next t ∧ clean t = true :=
  ⟨rfl, next_exists (by decide), nofun, next_with _ (by decide), next_with _ (by decide)⟩

theorem witness_RunningWrittenOnlyByHlt : (∃ t, exec (.jmp 0) (at_ 0 []) = .next t ∧ t.running = true) ∧
    Instr.jmp 0 ≠ .hlt ∧ (∃ s, loadProgram [0x01] = .ok s) ∧ (at_ 0 []).fault = none :=
  ⟨next_with _ (by decide), nofun, ⟨_, Memory.loadProgram_fits (by simp)⟩, rfl⟩

/-- A register no operand names, and the one a jump that is not taken would name. -/
theorem witness_UnaccessedRegistersDoNotMatter :
    ((∀ a ∈ accessedRegisters (.add 0 1) 0, a.toNat ≠ (7 : Fin 8).val) ∧ ∃ t, exec (.add 0 1) (at_ 0 []) = .next t) ∧
    (∀ a ∈ accessedRegisters (.jeq 7) 0, a.toNat ≠ (7 : Fin 8).val) ∧ ∃ t, exec (.jeq 7) (at_ 0 []) = .next t :=
  ⟨⟨by decide, next_exists (by decide)⟩, by decide, next_exists (by decide)⟩

theorem witness_OnlyTheEqualBitIsRead : (0b10 : Byte).getLsbD 0 = (at_ 0 []).fl.getLsbD 0 ∧
    (∃ t, exec (.jne 1) (at_ 0 []) = .next t) ∧ (∀ a b, Instr.jne 1 ≠ .cmp a b) ∧ (at_ 0 []).fault = none ∧
    ∃ t, exec (.cmp 0 1) (at_ 0 []) = .next t ∧ clean t = true := ⟨by decide, next_exists (by decide), nofun, rfl, next_with _ (by decide)⟩

theorem witness_MemWriteChangesOneCell : (at_ 0 [0x01, 0x00, 0x45]).mem.wf = true := by decide

theorem witness_PushThenPopRestores : (at_ 0 []).mem.wf = true ∧ (∀ i ∈ [Instr.ldi 0 9], usesStack i = false) ∧
    ∃ s₁ s₂ t, exec (.push 7) (at_ 0 []) = .next s₁ ∧ execAll [.ldi 0 9] s₁ = .next s₂ ∧ exec (.pop 0) s₂ = .next t ∧
      (at_ 0 []).fault = none ∧ t.fault = none :=
  ⟨by decide, by decide, _, _, _, next_getD (by decide), next_getD (by decide), next_getD (by decide), rfl, by decide⟩

theorem witness_ReturnGoesBehindTheCall : (at_ 253 [0x50, 7] (setSp 1)).mem.wf = true ∧ (7 : Byte).toNat < 8 ∧
    1 ≤ (at_ 253 [0x50, 7] (setSp 1)).sp.toNat ∧ (at_ 253 [0x50, 7] (setSp 1)).pc.toNat ≤ 253 ∧
    ∃ s₁ s₂, exec (.call 7) (at_ 253 [0x50, 7] (setSp 1)) = .next s₁ ∧ exec (.ldi 0 9) s₁ = .next s₂ ∧ s₂.sp = s₁.sp ∧
      s₂.mem.read s₁.sp.toNat = s₁.mem.read s₁.sp.toNat :=
  ⟨by decide, by decide, by decide, by decide, _, _, next_getD (by decide), next_getD (by decide), by decide, by decide⟩

/-- The premises of `StoreIsSeenByTheNextFetch` for a PUSH and its HLT clause, with PUSH at 251 and at 253 (where the
store is to its own operand byte). -/
theorem witness_StoreIsSeenByTheNextFetch_push :
    (let s := at_ 251 [0x45, 0] (set 0 0x01 ∘ setSp 254)
     Live s ∧ s.mem.wf = true ∧ Fetches opcodeMap s (.push 0) ∧ 1 ≤ s.sp.toNat ∧
      (251 + 2 : Byte).toNat ≤ 253 ∧ (251 + 2 : Byte).toNat + 1 = s.sp.toNat ∧ s.regs[0] = opcodeMap .hlt) ∧
    (let s := at_ 253 [0x45, 0] (setSp 255)
     Live s ∧ s.mem.wf = true ∧ Fetches opcodeMap s (.push 0) ∧ s.sp.toNat - 1 = s.pc.toNat + 1) :=
  ⟨⟨by decide, by decide, ⟨by decide, rfl⟩, by decide, by decide, by decide, by decide⟩,
    ⟨by decide, by decide, ⟨by decide, rfl⟩, by decide⟩⟩

/-- The premises of `StoreIsSeenByTheNextFetch` for a CALL: at 15 it stores 0x11, a RET opcode, where it jumps to,
and at 16 it would store 0x12, an undefined byte. -/
theorem witness_StoreIsSeenByTheNextFetch_call :
    (let s := at_ 15 [0x50, 1] (set 1 243)
     Live s ∧ s.mem.wf = true ∧ Fetches opcodeMap s (.call 1) ∧ 1 ≤ s.sp.toNat ∧ s.regs[1].toNat ≤ 253 ∧
      s.regs[1].toNat + 1 = s.sp.toNat) ∧
    decode opcodeMap (BitVec.ofNat 8 (15 + 2)) 0 0 = .ok .ret ∧ (∀ m, opcodeMap m ≠ BitVec.ofNat 8 (16 + 2)) :=
  ⟨⟨by decide, by decide, ⟨by decide, rfl⟩, by decide, by decide, by decide⟩, rfl, fun m => by cases m <;> decide⟩

/-- R52: a CALL at 15 that stores its return address 17, a RET opcode, where it jumps to: the next step is that RET. -/
theorem test_call_into_its_return_address :
    ((after (at_ 15 [0x50, 1] (set 1 243))).bind after).map (fun t => (t.pc, t.sp)) = some (17, 244) := by decide

/-- R52, R131: a PUSH at 253 that stores to its own operand byte runs as fetched. -/
theorem test_push_over_its_operand : (after (at_ 253 [0x45, 0] (set 0 9 ∘ setSp 255))).map
    (fun t => (t.fault, t.pc, t.mem.read 254)) = some (none, 255, 9) := by decide

theorem witness_StepKeepsTheInvariant : Inv (at_ 0 [0xA7, 0, 1]) ∧ ∃ t, stepWith opcodeMap (at_ 0 [0xA7, 0, 1]) = .next t :=
  ⟨by decide, next_exists (by decide)⟩

end Sys2Proof.Tests
end

section
/-! The round trip of the encoding: decoding the bytes of an encoded instruction gives it back (spec 00_scope.md R7,
30_encoding.md R60, R62 to R65). -/

namespace Sys2Proof

/-- One case per format: N2 has both operand bytes of its own; in N1 and N0 the bytes that follow stand in the places
left open, and `Mnemonic.build` drops them (30_encoding.md R62 to R64, R73). -/
theorem Instr.build_head_of_operands (x y : Byte) : ∀ i : Instr,
    ∃ a b rest, i.operands ++ [x, y] = a :: b :: rest ∧ i.mnemonic.build a b = i
  | .hlt | .ret => ⟨x, y, [], rfl, rfl⟩
  | .push a | .pop a | .prn a | .call a | .jmp a | .jeq a | .jne a => ⟨a, x, [y], rfl, rfl⟩
  | .ldi a b | .add a b | .mul a b | .cmp a b | .and a b | .or a b | .xor a b => ⟨a, b, [x, y], rfl, rfl⟩

/-- Settles O3: a legal map looks the opcode byte up to the mnemonic it was encoded from, and the two bytes after it
build the instruction. -/
theorem decodeUndoesEncode : Obligations.DecodeUndoesEncode := by
  intro map legal i x y
  obtain ⟨a, b, rest, bytes, built⟩ := i.build_head_of_operands x y
  calc decodeBytes map (encode map i ++ [x, y])
      = decode map (map i.mnemonic) a b := by rw [encode, List.cons_append, bytes, decodeBytes]
    _ = .ok (i.mnemonic.build a b) := decode_of_lookup a b (legal.lookup i.mnemonic)
    _ = .ok i := by rw [built]

end Sys2Proof
end

section
/-! Frames: what each write of the state leaves unchanged, and from that what each instruction leaves unchanged when it
does not fault (spec 10_state.md R22, R26, R28, R29, R32, 20_memory.md R44). -/

namespace Sys2Proof.Machine

open Sys2Proof.Safety

/-- From `s` to `t` nothing has changed that the instruction `i` may not write. -/
structure Frame (i : Instr) (s t : State) : Prop where
  regs : ∀ r : Fin 8, r.val ∉ writtenRegisters i → t.regs[r] = s.regs[r]
  sp : usesStack i = false → t.sp = s.sp
  fl : (∀ a b, i ≠ .cmp a b) → t.fl = s.fl
  mem : (∀ a, i ≠ .push a ∧ i ≠ .call a) → t.mem = s.mem
  running : i ≠ .hlt → t.running = s.running
  fault : t.fault = s.fault
  out : (∀ a, i ≠ .prn a) → t.out = s.out

namespace Frame

variable {i : Instr} {s t : State} {v : Byte}

theorem refl (i : Instr) (s : State) : Frame i s s :=
  ⟨fun _ _ => rfl, fun _ => rfl, fun _ => rfl, fun _ => rfl, fun _ => rfl, rfl, fun _ => rfl⟩

theorem setPc (h : Frame i s t) : Frame i s (t.setPc v) := { h with }

theorem setReg {q : Fin Config.numRegs} (h : Frame i s t) (hi : q.val ∈ writtenRegisters i) :
    Frame i s (t.setReg q v) :=
  { h with
    regs := fun r hr =>
      have hne : q ≠ r := fun e => hr (e ▸ hi)
      (reg_setReg_other t q r v hne).trans (h.regs r hr) }

theorem setSp (h : Frame i s t) (hi : usesStack i = true) : Frame i s (t.setSp v) :=
  { h with sp := fun hn => nomatch hi.symm.trans hn }

theorem setFl {a b : Byte} (h : Frame (.cmp a b) s t) : Frame (.cmp a b) s (t.setFl v) :=
  { h with fl := fun hn => absurd rfl (hn a b) }

theorem memWrite {a slot : Byte} (h : Frame i s t) (hi : i = .push a ∨ i = .call a) :
    Frame i s (t.memWrite slot v) :=
  { h with mem := fun hn => (hi.elim (hn a).1 (hn a).2).elim }

theorem halt (h : Frame .hlt s t) : Frame .hlt s t.halt := { h with running := fun hn => absurd rfl hn }

theorem emit {a : Byte} (h : Frame (.prn a) s t) : Frame (.prn a) s (t.emit v) :=
  { h with out := fun hn => absurd rfl (hn a) }

/-- The ALU instructions that write a register write the one operand A names and pc. -/
theorem aluEffect {f : Byte → Byte → Byte} {a b : Byte} (hi : a.toNat ∈ writtenRegisters i)
    (h : Effect.AluEffect s t f a b) : Frame i s t := by
  obtain ⟨_, _, _, rfl⟩ := h
  exact ((refl i s).setReg hi).setPc

end Frame

variable {i : Instr} {s t : State}

/-- Each instruction's effect is a chain of writes, each of them one that the instruction may do. -/
theorem Effect.frame (h : Effect i s t) : Frame i s t := by
  cases i with
  | hlt =>
    obtain ⟨_, rfl⟩ := h
    exact (Frame.refl _ s).halt.setPc
  | ret =>
    obtain ⟨_, rfl⟩ := h
    exact (Frame.refl _ s).setPc.setSp rfl
  | push a =>
    obtain ⟨_, _, _, rfl⟩ := h
    exact (((Frame.refl _ s).setSp rfl).memWrite (.inl rfl)).setPc
  | pop a =>
    obtain ⟨_, _, _, rfl⟩ := h
    exact (((Frame.refl _ s).setReg (List.mem_singleton_self _)).setSp rfl).setPc
  | prn a =>
    obtain ⟨_, _, rfl⟩ := h
    exact (Frame.refl _ s).emit.setPc
  | call a =>
    obtain ⟨_, _, _, rfl⟩ := h
    exact (((Frame.refl _ s).setSp rfl).memWrite (.inr rfl)).setPc
  | jmp a =>
    obtain ⟨_, rfl⟩ := h
    exact (Frame.refl _ s).setPc
  | jeq a | jne a =>
    obtain ⟨_, _, rfl⟩ | ⟨_, _, rfl⟩ := h
    · exact (Frame.refl _ s).setPc
    · exact (Frame.refl _ s).setPc
  | ldi a imm =>
    obtain ⟨_, _, rfl⟩ := h
    exact ((Frame.refl _ s).setReg (List.mem_singleton_self _)).setPc
  | add a b | mul a b | and a b | or a b | xor a b => exact Frame.aluEffect (List.mem_singleton_self _) h
  | cmp a b =>
    obtain ⟨_, _, _, rfl⟩ := h
    exact (Frame.refl _ s).setFl.setPc

/-- An instruction that leaves no fault recorded has had its effect. -/
theorem effect_of_unfaulted (h : exec i s = .next t) (ht : t.fault = none) : Effect i s t := by
  rcases exec_next h with he | ⟨x, rfl⟩
  · exact he
  · cases ht

/-- An instruction that faults writes the fault record and nothing else (60_exceptions.md R175). -/
theorem withFault_of_faulted (hs : s.fault = none) (h : exec i s = .next t) (ht : t.fault ≠ none) :
    ∃ x, t = s.withFault x :=
  (exec_next h).resolve_left fun he => ht (he.frame.fault.trans hs)

/-- Settles O38: a fault keeps every register, and the effect keeps those the instruction does not write. -/
theorem registersKeptButTheDestination : Obligations.RegistersKeptButTheDestination := by
  intro i s t h r hr
  rcases exec_next h with he | ⟨x, rfl⟩
  · exact he.frame.regs r hr
  · rfl

/-- What CMP writes to fl is one of the three flags. -/
theorem compareFlags_oneFlag (x y : Byte) : compareFlags x y = 1 ∨ compareFlags x y = 2 ∨ compareFlags x y = 4 := by
  rcases compareFlags_cases x y with ⟨_, h⟩ | ⟨_, h⟩ | ⟨_, h⟩
  · exact .inr (.inr h)
  · exact .inr (.inl h)
  · exact .inl h

theorem Effect.cmp_fl {a b : Byte} (h : Effect (.cmp a b) s t) : t.fl = 1 ∨ t.fl = 2 ∨ t.fl = 4 := by
  obtain ⟨_, _, _, rfl⟩ := h
  exact compareFlags_oneFlag _ _

/-- Settles O39: fl is in the frame of every instruction but CMP, which writes one flag. -/
theorem flagsWrittenOnlyByCmp : Obligations.FlagsWrittenOnlyByCmp := by
  refine fun i s t _ h => ⟨fun hi => ?_, ?_⟩
  · rcases exec_next h with he | ⟨x, rfl⟩
    · exact he.frame.fl hi
    · rfl
  · rintro a b rfl ht
    exact (effect_of_unfaulted h ht).cmp_fl

theorem Effect.sp_down {a : Byte} (h : Effect i s t) (hi : i = .push a ∨ i = .call a) :
    t.sp.toNat + 1 = s.sp.toNat := by
  have hlt := s.sp.isLt
  have pushed (h0 : 0 < s.sp.toNat) : (BitVec.ofNat 8 (s.sp.toNat - 1)).toNat + 1 = s.sp.toNat := by
    rw [BitVec.toNat_ofNat, Nat.mod_eq_of_lt (by omega)]
    omega
  obtain rfl | rfl := hi
  · obtain ⟨_, h0, _, rfl⟩ := h
    exact pushed h0
  · obtain ⟨_, h0, _, rfl⟩ := h
    exact pushed h0

theorem Effect.sp_up (h : Effect i s t) (hi : i = .ret ∨ ∃ a, i = .pop a) : t.sp.toNat = s.sp.toNat + 1 := by
  have popped (h0 : s.sp.toNat < 255) : (BitVec.ofNat 8 (s.sp.toNat + 1)).toNat = s.sp.toNat + 1 := by
    rw [BitVec.toNat_ofNat, Nat.mod_eq_of_lt (by omega)]
  obtain rfl | ⟨a, rfl⟩ := hi
  · obtain ⟨h0, rfl⟩ := h
    exact popped h0
  · obtain ⟨_, h0, _, rfl⟩ := h
    exact popped h0

/-- Settles O40: sp is in the frame of the instructions without the stack and is kept by a fault; where the stack check
has passed, sp - 1 and sp + 1 do not wrap. -/
theorem stackPointerMovesByOneOrNot : Obligations.StackPointerMovesByOneOrNot := by
  refine fun i s t hs h => ⟨?_, fun ht a hi => (effect_of_unfaulted h ht).sp_down hi,
    fun ht hi => (effect_of_unfaulted h ht).sp_up hi⟩
  rintro (hi | ht)
  · rcases exec_next h with he | ⟨x, rfl⟩
    · exact he.frame.sp hi
    · rfl
  · obtain ⟨x, rfl⟩ := withFault_of_faulted hs h ht
    rfl

/-- Settles O42: the output is in the frame of every instruction but PRN and is kept by a fault; PRN appends the
register it names. -/
theorem outputWrittenOnlyByPrn : Obligations.OutputWrittenOnlyByPrn := by
  refine fun i s t hs h => ⟨?_, ?_⟩
  · rintro (hi | ht)
    · rcases exec_next h with he | ⟨x, rfl⟩
      · exact he.frame.out hi
      · rfl
    · obtain ⟨x, rfl⟩ := withFault_of_faulted hs h ht
      rfl
  · rintro a rfl ht
    obtain ⟨ha, _, rfl⟩ := effect_of_unfaulted h ht
    exact ⟨s.reg ⟨a.toNat, ha⟩, Vector.getElem?_eq_getElem ha, rfl⟩

end Sys2Proof.Machine
end

section
/-! The invariant along a step: canonical memory and a legal fl (spec 10_state.md R28, 20_memory.md R40; log 11). -/

namespace Sys2Proof.Machine

open Sys2Proof.Safety

variable {map : OpcodeMap} {i : Instr} {s t : State}

/-- Everything fetch and decode can do when they answer a next state: go on with the instruction fetched, or raise the
fault of the fetch or of the decoder (40_fetch_decode_execute.md R91 to R93). -/
theorem fetchDecode_next {k : Instr → Host.Outcome State Fault Refusal} (h : fetchDecode map s k = .next t) :
    (∃ i, Fetches map s i ∧ k i = .next t) ∨
      (253 < s.pc.toNat ∧ t = s.withFault (memoryFault 256)) ∨
      (s.pc.toNat ≤ 253 ∧ map.lookup (s.mem.read s.pc.toNat) = none ∧
        t = s.withFault (.unknownOpcode s.pc (s.mem.read s.pc.toNat))) := by
  rcases Nat.lt_or_ge 253 s.pc.toNat with hp | hp
  · rw [fetchDecode, fetch_outside hp] at h
    exact .inr (.inl ⟨hp, raise_eq_next h⟩)
  · rw [fetchDecode, fetch_inside hp] at h
    cases hm : map.lookup (s.mem.read s.pc.toNat) with
    | some m =>
      have hd := decode_of_lookup (s.mem.read (s.pc.toNat + 1)) (s.mem.read (s.pc.toNat + 2)) hm
      rw [hd] at h
      exact .inl ⟨_, ⟨hp, hd⟩, h⟩
    | none =>
      rw [decode, hm] at h
      exact .inr (.inr ⟨hp, rfl, raise_eq_next h⟩)

/-- Everything a step can do when it answers a next state: stay halted, execute what it fetched, or raise the fault of
the fetch or of the decoder (40_fetch_decode_execute.md R90 to R93). -/
theorem stepWith_next (h : stepWith map s = .next t) :
    s.fault = none ∧
      ((s.running = false ∧ t = s) ∨
        (s.running = true ∧ ∃ i, Fetches map s i ∧ exec i s = .next t) ∨
        (s.running = true ∧ 253 < s.pc.toNat ∧ t = s.withFault (memoryFault 256)) ∨
        (s.running = true ∧ s.pc.toNat ≤ 253 ∧ map.lookup (s.mem.read s.pc.toNat) = none ∧
          t = s.withFault (.unknownOpcode s.pc (s.mem.read s.pc.toNat)))) := by
  rw [stepWith] at h
  split at h
  · cases h
  · next hf =>
    refine ⟨hf, ?_⟩
    split at h
    · next hr => exact .inr ((fetchDecode_next h).imp (⟨hr, ·⟩) (Or.imp (⟨hr, ·⟩) (⟨hr, ·⟩)))
    · next hr =>
      injection h with h
      exact .inl ⟨Bool.eq_false_iff.mpr hr, h.symm⟩

/-- PUSH and CALL write one cell; the other instructions leave memory as it is. -/
theorem Effect.mem_wf (h : Effect i s t) (hw : s.mem.wf = true) : t.mem.wf = true := by
  by_cases hi : ∀ a, i ≠ .push a ∧ i ≠ .call a
  · rw [h.frame.mem hi]
    exact hw
  · obtain ⟨a, rfl | rfl⟩ : ∃ a, i = .push a ∨ i = .call a := by
      simpa only [ne_eq, not_forall, not_and_or, not_not] using hi
    · obtain ⟨_, _, _, rfl⟩ := h
      exact Memory.wf_write _ _ hw
    · obtain ⟨_, _, _, rfl⟩ := h
      exact Memory.wf_write _ _ hw

/-- CMP leaves one flag; the other instructions leave fl as it is. -/
theorem Effect.flagsLegal (h : Effect i s t) (hf : FlagsLegal s.fl) : FlagsLegal t.fl := by
  by_cases hi : ∀ a b, i ≠ .cmp a b
  · rw [h.frame.fl hi]
    exact hf
  · obtain ⟨a, b, rfl⟩ : ∃ a b, i = .cmp a b := by simpa using hi
    exact .inr h.cmp_fl

theorem exec_inv (h : exec i s = .next t) (hs : Inv s) : Inv t := by
  rcases exec_next h with he | ⟨x, rfl⟩
  · exact ⟨he.mem_wf hs.1, he.flagsLegal hs.2⟩
  · exact hs

/-- Settles O51: of what a step can do, only executing an instruction writes memory or fl. -/
theorem stepKeepsTheInvariant : Obligations.StepKeepsTheInvariant := by
  intro map s t hs h
  obtain ⟨-, ⟨-, rfl⟩ | ⟨-, i, -, he⟩ | ⟨-, -, rfl⟩ | ⟨-, -, -, rfl⟩⟩ := stepWith_next h
  · exact hs
  · exact exec_inv he hs
  · exact hs
  · exact hs

end Sys2Proof.Machine
end

section
/-! Noninterference: a change of the state that an instruction neither reads nor overwrites passes through it unchanged
(spec 10_state.md R22, R28, R29). -/

namespace Sys2Proof.Machine

open Sys2Proof.Safety

/-- The outcome with its next state, where it has one, changed by `c`. -/
def mapNext (c : State → State) : Host.Outcome State Fault Refusal → Host.Outcome State Fault Refusal
  | .next t => .next (c t)
  | .fault f => .fault f
  | .refused r => .refused r

/-- `c` changes nothing that every instruction may depend on: it keeps pc, sp, memory and bit 0 of fl, and whether it
comes before or after a fault or a write of pc, sp, memory or the output makes no difference. For a change of a field
that a law does not speak of, the law holds by definition and need not be given. -/
structure Unseen (c : State → State) (s : State) : Prop where
  pc : (c s).pc = s.pc := by rfl
  sp : (c s).sp = s.sp := by rfl
  mem : (c s).mem = s.mem := by rfl
  equalBit : (c s).fl.getLsbD 0 = s.fl.getLsbD 0 := by rfl
  withFault : ∀ f, c (s.withFault f) = (c s).withFault f := by intros; rfl
  setPc : ∀ u v, c (State.setPc u v) = (c u).setPc v := by intros; rfl
  setSp : ∀ u v, c (State.setSp u v) = (c u).setSp v := by intros; rfl
  memWrite : ∀ u a v, c (State.memWrite u a v) = (c u).memWrite a v := by intros; rfl
  emit : ∀ u v, c (State.emit u v) = (c u).emit v := by intros; rfl

section
variable {c : State → State} {s p p' : State} {k k' : Byte → Host.Outcome State Fault Refusal} {x : Int}
  {m : Mnemonic} {a b : Byte} {f : Byte → Byte → Byte}

namespace Unseen

theorem raise (hc : Unseen c s) (f : Fault) : raise f (c s) = mapNext c (raise f s) :=
  congrArg Host.Outcome.next (hc.withFault f).symm

theorem withAddress (hc : Unseen c s) (hk : ∀ v, k' v = mapNext c (k v)) :
    withAddress x (c s) k' = mapNext c (withAddress x s k) := by
  by_cases hx : 0 ≤ x ∧ x < 256
  · rw [withAddress_inside hx.1 hx.2, withAddress_inside hx.1 hx.2, hk]
  · rw [withAddress_outside hx, withAddress_outside hx, hc.raise]

theorem withPushSlot (hc : Unseen c s) (hk : ∀ v, k' v = mapNext c (k v)) :
    withPushSlot (c s) k' = mapNext c (withPushSlot s k) := by
  rw [Machine.withPushSlot, hc.sp]
  exact hc.withAddress hk

theorem withPoppedSp (hc : Unseen c s) (hk : ∀ v, k' v = mapNext c (k v)) :
    withPoppedSp (c s) k' = mapNext c (withPoppedSp s k) := by
  rw [Machine.withPoppedSp, hc.sp]
  exact hc.withAddress hk

theorem withNextPc (hc : Unseen c s) (hk : ∀ v, k' v = mapNext c (k v)) :
    withNextPc m (c s) k' = mapNext c (withNextPc m s k) := by
  rw [Machine.withNextPc, hc.pc]
  exact hc.withAddress hk

theorem advance (hc : Unseen c s) (hp : p' = c p) : advance m (c s) p' = mapNext c (advance m s p) :=
  hc.withNextPc fun v => by rw [hp, ← hc.setPc]; rfl

/-- Only the register that the operand names is looked at. -/
theorem withRegister {k k' : Fin Config.numRegs → Host.Outcome State Fault Refusal} (hc : Unseen c s)
    (hk : ∀ h : a.toNat < 8, k' ⟨a.toNat, h⟩ = mapNext c (k ⟨a.toNat, h⟩)) :
    withRegister a (c s) k' = mapNext c (withRegister a s k) := by
  by_cases ha : a.toNat < 8
  · rw [withRegister_named ha, withRegister_named ha, hk ha]
  · rw [withRegister_unnamed ha, withRegister_unnamed ha, hc.raise]

/-- Only the two registers that the operands name are looked at. -/
theorem withRegisters {k k' : Fin Config.numRegs → Fin Config.numRegs → Host.Outcome State Fault Refusal}
    (hc : Unseen c s)
    (hk : ∀ (ha : a.toNat < 8) (hb : b.toNat < 8),
      k' ⟨a.toNat, ha⟩ ⟨b.toNat, hb⟩ = mapNext c (k ⟨a.toNat, ha⟩ ⟨b.toNat, hb⟩)) :
    withRegisters a b (c s) k' = mapNext c (withRegisters a b s k) :=
  hc.withRegister fun ha => hc.withRegister (hk ha)

end Unseen

/-- The register that the operand `a` names holds the same after the change `c`. -/
def KeepsReg (c : State → State) (s : State) (a : Byte) : Prop :=
  ∀ h : a.toNat < 8, (c s).reg ⟨a.toNat, h⟩ = s.reg ⟨a.toNat, h⟩

/-- Writing register `n` and the change `c` can be done in either order. -/
def CommutesSetReg (c : State → State) (s : State) (n : Nat) : Prop :=
  ∀ (h : n < 8) (v : Byte), c (s.setReg ⟨n, h⟩ v) = (c s).setReg ⟨n, h⟩ v

theorem Unseen.jumpTo (hc : Unseen c s) (ha : KeepsReg c s a) : jumpTo a (c s) = mapNext c (jumpTo a s) :=
  hc.withRegister fun h => by rw [ha h, ← hc.setPc]; rfl

theorem Unseen.aluWrite (hc : Unseen c s) (ha : KeepsReg c s a) (hb : KeepsReg c s b)
    (hw : CommutesSetReg c s a.toNat) : aluWrite m f a b (c s) = mapNext c (aluWrite m f a b s) := by
  rw [Machine.aluWrite, Machine.aluWrite]
  refine hc.withRegisters fun ia ib => hc.advance ?_
  rw [ha ia, hb ib, hw ia]

end

/-- What `c` must keep for the instruction `i` in particular: the registers it accesses, and the order of `c` and of the
writes that only some instructions do. -/
structure UnseenBy (c : State → State) (i : Instr) (s : State) : Prop extends Unseen c s where
  reg : ∀ a ∈ accessedRegisters i s.fl, KeepsReg c s a := by intros; intro; rfl
  setReg : ∀ n ∈ writtenRegisters i, CommutesSetReg c s n := by intros; intro _ _; rfl
  setFl : ∀ a b, i = .cmp a b → ∀ v, c (s.setFl v) = (c s).setFl v := by intros; rfl
  halt : i = .hlt → c s.halt = (c s).halt := by intros; rfl

/-- An instruction that does not see a change does the same with it as without it, and leaves it. -/
theorem UnseenBy.exec {c : State → State} {i : Instr} {s : State} (h : UnseenBy c i s) :
    exec i (c s) = mapNext c (exec i s) := by
  have hc := h.toUnseen
  have alu {m : Mnemonic} {f : Byte → Byte → Byte} {a b : Byte} (hr : accessedRegisters i s.fl = [a, b])
      (hw : writtenRegisters i = [a.toNat]) : aluWrite m f a b (c s) = mapNext c (aluWrite m f a b s) :=
    hc.aluWrite (h.reg a (by simp [hr])) (h.reg b (by simp [hr])) (h.setReg _ (by simp [hw]))
  cases i with
  | hlt => exact hc.advance (h.halt rfl).symm
  | ret =>
    rw [exec_ret, exec_ret]
    refine hc.withPoppedSp fun v => ?_
    rw [memRead_eq, hc.mem, hc.sp, ← hc.setPc, ← hc.setSp]
    rfl
  | push a =>
    have ha := h.reg a (List.mem_singleton_self a)
    rw [exec_push, exec_push]
    refine hc.withRegister fun ia => hc.withPushSlot fun v => hc.advance ?_
    rw [ha ia, hc.memWrite, hc.setSp]
  | pop a =>
    have hw := h.setReg a.toNat (List.mem_singleton_self _)
    rw [exec_pop, exec_pop]
    refine hc.withRegister fun ia => hc.withPoppedSp fun v => hc.advance ?_
    rw [memRead_eq, memRead_eq, hc.mem, hc.sp, hc.setSp, hw ia]
  | prn a =>
    have ha := h.reg a (List.mem_singleton_self a)
    rw [exec_prn, exec_prn]
    refine hc.withRegister fun ia => hc.advance ?_
    rw [ha ia, hc.emit]
  | call a =>
    have ha := h.reg a (List.mem_singleton_self a)
    rw [exec_call, exec_call]
    refine hc.withRegister fun ia => hc.withPushSlot fun v => hc.withNextPc fun w => ?_
    rw [ha ia, ← hc.setSp, ← hc.memWrite, ← hc.setPc]
    rfl
  | jmp a => exact hc.jumpTo (h.reg a (List.mem_singleton_self a))
  | jeq a =>
    rw [exec_jeq, exec_jeq, hc.equalBit]
    split
    · next he => exact hc.jumpTo (h.reg a (by rw [accessedRegisters, if_pos he]; exact List.mem_singleton_self a))
    · exact hc.advance rfl
  | jne a =>
    rw [exec_jne, exec_jne, hc.equalBit]
    split
    · exact hc.advance rfl
    · next he => exact hc.jumpTo (h.reg a (by rw [accessedRegisters, if_neg he]; exact List.mem_singleton_self a))
  | ldi a imm =>
    have hw := h.setReg a.toNat (List.mem_singleton_self _)
    rw [exec_ldi, exec_ldi]
    exact hc.withRegister fun ia => hc.advance (hw ia _).symm
  | add a b | mul a b | and a b | or a b | xor a b => exact alu rfl rfl
  | cmp a b =>
    have ha := h.reg a (by simp [accessedRegisters])
    have hb := h.reg b (by simp [accessedRegisters])
    rw [exec_cmp, exec_cmp]
    refine hc.withRegisters fun ia ib => hc.advance ?_
    rw [ha ia, hb ib, h.setFl a b rfl]

variable {c : State → State} {i : Instr} {s t : State}

theorem UnseenBy.exec_next (hc : UnseenBy c i s) (h : Machine.exec i s = .next t) :
    Machine.exec i (c s) = .next (c t) := by
  rw [hc.exec, h]
  rfl

/-- The state with another value of running. -/
def withRunning (b : Bool) (s : State) : State := { s with running := b }

/-- The state with another value in register `r`. -/
def withReg (r : Fin 8) (v : Byte) (s : State) : State := { s with regs := s.regs.set r v }

/-- The state with another value of fl. -/
def withFl (fl : Byte) (s : State) : State := { s with fl := fl }

/-- No instruction but HLT, which overwrites it, sees running. -/
theorem unseenBy_withRunning (b : Bool) (hi : i ≠ .hlt) : UnseenBy (withRunning b) i s where
  halt h := absurd h hi

/-- No instruction but CMP, which overwrites it, sees more of fl than bit 0. -/
theorem unseenBy_withFl {fl : Byte} (h : fl.getLsbD 0 = s.fl.getLsbD 0) (hi : ∀ a b, i ≠ .cmp a b) :
    UnseenBy (withFl fl) i s where
  equalBit := h
  setFl a b h := absurd h (hi a b)

/-- The registers that an instruction writes are among those it accesses. -/
theorem accessed_of_written {n : Nat} (fl : Byte) (h : n ∈ writtenRegisters i) :
    ∃ a ∈ accessedRegisters i fl, a.toNat = n := by
  cases i with
  | hlt | ret | push | prn | call | jmp | jeq | jne | cmp => cases h
  | pop a | ldi a imm | add a b | mul a b | and a b | or a b | xor a b =>
    exact ⟨a, List.mem_cons_self, (List.mem_singleton.mp h).symm⟩

/-- No instruction sees a register that it does not access. -/
theorem unseenBy_withReg {r : Fin 8} (v : Byte) (h : ∀ a ∈ accessedRegisters i s.fl, a.toNat ≠ r.val) :
    UnseenBy (withReg r v) i s where
  reg a ha hn := reg_setReg_other s r ⟨a.toNat, hn⟩ v fun e => h a ha (congrArg Fin.val e).symm
  setReg n hn hlt w := by
    obtain ⟨a, ha, rfl⟩ := accessed_of_written s.fl hn
    exact congrArg (fun regs => { s with regs }) (Vector.set_comm (hi := hlt) (hj := r.isLt) w v (h a ha))

/-- Settles O44: changing the register is a change the instruction does not see. -/
theorem unaccessedRegistersDoNotMatter : Obligations.UnaccessedRegistersDoNotMatter :=
  fun _ _ _ _ v hr h => (unseenBy_withReg v hr).exec_next h

/-- CMP overwrites fl, so what it held before is not left. -/
theorem Effect.exec_cmp_withFl {a b : Byte} (h : Effect (.cmp a b) s t) (fl : Byte) :
    Machine.exec (.cmp a b) (withFl fl s) = .next t := by
  obtain ⟨ha, hb, hp, rfl⟩ := h
  rw [exec_cmp, withRegisters_named ha hb, advance_inside hp]
  rfl

/-- Settles O45: changing the other bits of fl is a change that every instruction but CMP does not see. -/
theorem onlyTheEqualBitIsRead : Obligations.OnlyTheEqualBitIsRead := by
  refine fun i s t fl hfl h => ⟨fun hi => (unseenBy_withFl hfl hi).exec_next h, ?_⟩
  rintro a b rfl - ht
  exact (effect_of_unfaulted h ht).exec_cmp_withFl fl

/-- HLT does not read running: it overwrites it, or faults and leaves it. -/
theorem exec_hlt_withRunning (b : Bool) (h : Machine.exec .hlt s = .next t) :
    ∃ b', Machine.exec .hlt (withRunning b s) = .next (withRunning b' t) := by
  rcases advance_next h with ⟨hp, rfl⟩ | ⟨hp, rfl⟩
  · exact ⟨false, advance_inside hp⟩
  · exact ⟨b, advance_outside hp⟩

theorem loadProgram_running {image : List Byte} (h : loadProgram image = .ok s) : s.running = true := by
  rcases Nat.lt_or_ge 256 image.length with hl | hl
  · rw [Memory.loadProgram_tooLong hl] at h
    cases h
  · rw [Memory.loadProgram_fits hl] at h
    cases h
    rfl

/-- An instruction does not start a halted core: HLT stops it, and the others leave running. -/
theorem running_of_exec (h : Machine.exec i s = .next t) (ht : t.running = true) : s.running = true := by
  rcases Machine.exec_next h with he | ⟨x, rfl⟩
  · by_cases hi : i = .hlt
    · subst hi
      obtain ⟨_, rfl⟩ := he
      cases ht
    · exact he.frame.running hi ▸ ht
  · exact ht

/-- Settles O43: running is in the frame of every instruction but HLT, and a change of it is one that no instruction
sees. -/
theorem runningWrittenOnlyByHlt : Obligations.RunningWrittenOnlyByHlt := by
  refine ⟨rfl, fun _ _ => loadProgram_running, fun i s t h => ⟨fun hi => ?_, running_of_exec h, fun b => ?_⟩,
    fun s hf => by rw [State.outcome, hf]⟩
  · rcases Machine.exec_next h with he | ⟨x, rfl⟩
    · exact he.frame.running hi
    · rfl
  · by_cases hi : i = .hlt
    · subst hi
      exact exec_hlt_withRunning b h
    · exact ⟨b, (unseenBy_withRunning b hi).exec_next h⟩

end Sys2Proof.Machine
end

section
/-! What a store leaves in memory: one cell changed, by PUSH and CALL alone, and seen by the next fetch (spec
20_memory.md R42, R44, R52). -/

namespace Sys2Proof.Machine

open Sys2Proof.Safety

theorem Memory.stored_write {m : Memory} (addr : Nat) (v : Byte) (h : m.wf = true) :
    Stored m (m.write addr v) addr v :=
  ⟨read_write_same addr v h, fun _ hx => read_write_other v h hx⟩

/-- Settles O46: a memory write writes the field `mem` alone, and there its one cell. -/
theorem memWriteChangesOneCell : Obligations.MemWriteChangesOneCell :=
  fun s addr v h => ⟨s.mem.write addr.toNat v, rfl, Memory.stored_write addr.toNat v h⟩

/-- What a PUSH and a CALL have in common: sp moves down to a slot, `v` is stored there, and pc goes to `target`. -/
def State.pushed (s : State) (v target : Byte) : State :=
  ((s.setSp (BitVec.ofNat 8 (s.sp.toNat - 1))).memWrite (BitVec.ofNat 8 (s.sp.toNat - 1)) v).setPc target

section
variable {map : OpcodeMap} {i : Instr} {s t : State} {a v target : Byte}

/-- The slot's address is sp - 1 as a number, since sp is a byte. -/
theorem pushSlot_toNat (s : State) : (BitVec.ofNat 8 (s.sp.toNat - 1)).toNat = s.sp.toNat - 1 := by
  have hlt := s.sp.isLt
  rw [BitVec.toNat_ofNat, Nat.mod_eq_of_lt (by omega)]

theorem pushed_sp_toNat : (s.pushed v target).sp.toNat = s.sp.toNat - 1 := pushSlot_toNat s

theorem pushed_stored (h : s.mem.wf = true) : Stored s.mem (s.pushed v target).mem (s.sp.toNat - 1) v := by
  rw [← pushSlot_toNat s]
  exact Memory.stored_write _ v h

theorem pushed_read (h : s.mem.wf = true) (x : Nat) :
    (s.pushed v target).mem.read x = if x = s.sp.toNat - 1 then v else s.mem.read x := by
  obtain ⟨same, other⟩ := pushed_stored (v := v) (target := target) h
  split
  · next hx => rw [hx, same]
  · next hx => exact other x hx

theorem exec_push_room (ha : a.toNat < 8) (hs : 0 < s.sp.toNat) (hp : s.pc.toNat + 2 < 256) :
    exec (.push a) s = .next (s.pushed (s.reg ⟨a.toNat, ha⟩) (BitVec.ofNat 8 (s.pc.toNat + 2))) := by
  rw [exec_push, withRegister_named ha, withPushSlot_room hs]
  exact advance_inside hp

theorem exec_call_room (ha : a.toNat < 8) (hs : 0 < s.sp.toNat) (hp : s.pc.toNat + 2 < 256) :
    exec (.call a) s = .next (s.pushed (BitVec.ofNat 8 (s.pc.toNat + 2)) (s.reg ⟨a.toNat, ha⟩)) := by
  rw [exec_call, withRegister_named ha, withPushSlot_room hs]
  exact withNextPc_inside hp

/-- An instruction's effect keeps memory, or is that of a PUSH or a CALL. -/
theorem Effect.mem_kept_or_pushed (h : Effect i s t) :
    t.mem = s.mem ∨ (∃ a, i = .push a ∨ i = .call a) ∧ 0 < s.sp.toNat ∧ ∃ v target, t = s.pushed v target := by
  by_cases hi : ∃ a, i = .push a ∨ i = .call a
  · refine .inr ⟨hi, ?_⟩
    obtain ⟨a, rfl | rfl⟩ := hi
    · obtain ⟨_, h0, _, rfl⟩ := h
      exact ⟨h0, _, _, rfl⟩
    · obtain ⟨_, h0, _, rfl⟩ := h
      exact ⟨h0, _, _, rfl⟩
  · exact .inl (h.frame.mem fun a => not_or.mp fun ha => hi ⟨a, ha⟩)

/-- Settles O41: a fault keeps memory, and so does every effect but that of a PUSH or a CALL, which stores at sp - 1. -/
theorem memoryKeptButTheStackSlot : Obligations.MemoryKeptButTheStackSlot := by
  intro i s t hw h addr haddr
  rcases exec_next h with he | ⟨x, rfl⟩
  · obtain hm | ⟨⟨a, hi⟩, h0, v, target, rfl⟩ := he.mem_kept_or_pushed
    · rw [hm]
    · have hne : (addr : Int) ≠ (s.sp.toNat : Int) - 1 :=
        haddr.resolve_left fun hn => hi.elim (hn a).1 (hn a).2
      exact (pushed_stored hw).2 addr (by omega)
  · rfl

theorem stepWith_live (h : Live s) : stepWith map s = fetchDecode map s fun i => exec i s := by
  simp [stepWith, h.1, h.2]

/-- A live step executes the instruction it fetches. -/
theorem stepWith_fetches (h : Live s) (hf : Fetches map s i) : stepWith map s = exec i s := by
  rw [stepWith_live h, fetchDecode, fetch_inside hf.1, hf.2]

/-- A live step raises UnknownOpcode at an opcode byte that no mnemonic has. -/
theorem stepWith_unknownOpcode (h : Live s) (hp : s.pc.toNat ≤ 253) (hm : ∀ m, map m ≠ s.mem.read s.pc.toNat) :
    stepWith map s = .next (faultedState s (.unknownOpcode s.pc (s.mem.read s.pc.toNat))) := by
  rw [stepWith_live h, fetchDecode, fetch_inside hp, decode, OpcodeMap.lookup_eq_none.mpr hm]
  rfl

/-- A live step at a HLT opcode halts: there is room for the advance wherever a fetch succeeds. -/
theorem stepWith_hlt (h : Live s) (hp : s.pc.toNat ≤ 253) (hl : map.Legal)
    (hm : s.mem.read s.pc.toNat = map .hlt) :
    stepWith map s = .next (s.halt.setPc (BitVec.ofNat 8 (s.pc.toNat + 1))) := by
  have hadvance : s.pc.toNat + 1 < 256 := by omega
  have hf : Fetches map s .hlt := ⟨hp, decode_of_lookup _ _ (hm ▸ hl.lookup .hlt)⟩
  rw [stepWith_fetches h hf, exec_hlt]
  exact advance_inside hadvance

/-- Settles O49: the storing step leaves `s.pushed v target`, wherever its slot lies, and the next step fetches from
the memory of that state. -/
theorem storeIsSeenByTheNextFetch : Obligations.StoreIsSeenByTheNextFetch := by
  intro map i a ha s v target live hw hf hs hcase cell
  have hp : s.pc.toNat + 2 < 256 := by have := hf.1; omega
  have hexec : exec i s = .next (s.pushed v target) := by
    obtain ⟨rfl, rfl, rfl⟩ | ⟨rfl, rfl, rfl⟩ := hcase
    · exact exec_push_room ha hs hp
    · exact exec_call_room ha hs hp
  have live' : Live (s.pushed v target) := live
  have hread : ∀ x, (s.pushed v target).mem.read x = cell x := pushed_read hw
  refine ⟨s.pushed v target, (stepWith_fetches live hf).trans hexec, live', rfl,
    by rw [pushed_sp_toNat]; omega, hread, fun ht => ⟨fun j hj => ?_, fun hm => ?_, fun hl hslot hv => ?_⟩⟩
  · simp only [← hread] at hj
    exact stepWith_fetches live' ⟨ht, hj⟩
  · rw [← hread] at hm ⊢
    exact stepWith_unknownOpcode live' ht hm
  · have hhlt : (s.pushed v target).mem.read target.toNat = map .hlt := by
      rw [pushed_read hw, if_pos (by omega), hv]
    exact ⟨_, stepWith_hlt live' ht hl hhlt, rfl, live'.2⟩

end

end Sys2Proof.Machine
end

section
/-! The encoding of a decoded instruction, the opcode bytes of a legal map, and the default map (spec 30_encoding.md
R60, R61, R66 to R73). -/

namespace Sys2Proof

/-- An instruction keeps the operand bytes its format has and drops the others (30_encoding.md R62 to R64, R73). -/
@[simp] theorem Mnemonic.build_operands (a b : Byte) (m : Mnemonic) :
    (m.build a b).operands = [a, b].take m.operandCount := by
  cases m <;> rfl

theorem Mnemonic.operandCount_le_two (m : Mnemonic) : m.operandCount ≤ 2 := by cases m <;> decide

section
variable {map : OpcodeMap} {ir : Byte}

/-- The operand count of the mnemonic an opcode byte stands for is IR[7:6] (30_encoding.md R67). -/
theorem OpcodeMap.Legal.operandCount_of_lookup (legal : map.Legal) {m : Mnemonic} (h : map.lookup ir = some m) :
    (opcodeN ir).toNat = m.operandCount := by
  rw [← OpcodeMap.lookup_byte h, legal.operandCount]

/-- The instruction built depends on the operand bytes of its format alone, one case per format. -/
theorem Mnemonic.build_congr {a b a' b' : Byte} {m : Mnemonic}
    (h : [a, b].take m.operandCount = [a', b'].take m.operandCount) : m.build a b = m.build a' b' := by
  cases m with
  | hlt | ret => rfl
  | push | pop | prn | call | jmp | jeq | jne =>
    obtain rfl : a = a' := (List.cons.inj h).1
    rfl
  | ldi | add | mul | cmp | and | or | xor =>
    obtain ⟨rfl, hb⟩ := List.cons.inj h
    obtain rfl : b = b' := (List.cons.inj hb).1
    rfl

/-- A byte no mnemonic has decodes to the unknown-opcode error, whatever stands behind it (30_encoding.md R70). -/
theorem decode_of_lookup_none (a b : Byte) (h : map.lookup ir = none) :
    decode map ir a b = .error (.unknownOpcode ir) := by rw [decode, h]

/-- Decoding depends on the opcode byte and the first IR[7:6] operand bytes alone. -/
theorem OpcodeMap.Legal.decode_congr (legal : map.Legal) {a b a' b' : Byte}
    (h : [a, b].take (opcodeN ir).toNat = [a', b'].take (opcodeN ir).toNat) :
    decode map ir a b = decode map ir a' b' := by
  cases hm : map.lookup ir with
  | none => rw [decode_of_lookup_none a b hm, decode_of_lookup_none a' b' hm]
  | some m =>
    rw [legal.operandCount_of_lookup hm] at h
    rw [decode_of_lookup a b hm, decode_of_lookup a' b' hm, Mnemonic.build_congr h]

/-- IR[7:6] as a number (30_encoding.md R61). -/
theorem opcodeN_toNat (ir : Byte) : (opcodeN ir).toNat = ir.toNat / 64 := by
  have := ir.isLt
  rw [opcodeN, BitVec.extractLsb'_toNat, Nat.shiftRight_eq_div_pow]
  omega

theorem OpcodeMap.lookup_isSome : (map.lookup ir).isSome = true ↔ ∃ m, map m = ir := by
  rw [OpcodeMap.lookup, List.find?_isSome]
  simp [Mnemonic.mem_all]

/-- The defined bytes of a legal map are the 16 bytes of its mnemonics, in some order. -/
theorem OpcodeMap.Legal.defined_perm (legal : map.Legal) :
    ((List.range 256).filter fun n => (map.lookup (BitVec.ofNat 8 n)).isSome).Perm
      ((Mnemonic.all.map map).map BitVec.toNat) := by
  refine (List.perm_ext_iff_of_nodup (List.nodup_range.filter _)
    (legal.1.map fun _ _ => BitVec.eq_of_toNat_eq)).mpr fun n => ?_
  rw [List.map_map, List.mem_filter, List.mem_range, OpcodeMap.lookup_isSome, List.mem_map]
  constructor
  · rintro ⟨hn, m, hm⟩
    refine ⟨m, m.mem_all, ?_⟩
    rw [Function.comp_apply, hm, BitVec.toNat_ofNat, Nat.mod_eq_of_lt hn]
  · rintro ⟨m, -, rfl⟩
    exact ⟨(map m).isLt, m, by rw [Function.comp_apply, BitVec.ofNat_toNat, BitVec.setWidth_eq]⟩

/-- A legal map leaves 240 of the 256 bytes undefined (30_encoding.md R70). -/
theorem OpcodeMap.Legal.undefined_count (legal : map.Legal) :
    ((List.range 256).filter fun n => (map.lookup (BitVec.ofNat 8 n)).isNone).length = 240 := by
  have total := List.length_eq_length_filter_add (l := List.range 256)
    fun n => (map.lookup (BitVec.ofNat 8 n)).isSome
  have defined := legal.defined_perm.length_eq
  simp only [Option.not_isSome] at total
  rw [List.length_map, List.length_map, show Mnemonic.all.length = 16 from rfl] at defined
  rw [List.length_range] at total
  omega

end

/-- Settles O4: the mnemonic found has the opcode byte, and the instruction built keeps the operand bytes of its
format. -/
theorem encodeUndoesDecode : Obligations.EncodeUndoesDecode := by
  intro map ir a b i h
  obtain ⟨m, hm, rfl⟩ := decode_ok h
  calc encode map (m.build a b)
      = ir :: [a, b].take m.operandCount := by
        rw [encode, Mnemonic.build_mnemonic, Mnemonic.build_operands, OpcodeMap.lookup_byte hm]
    _ = [ir, a, b].take (m.build a b).mnemonic.length := by
        rw [Mnemonic.build_mnemonic, Mnemonic.length, Nat.add_comm, List.take_succ_cons]

/-- Settles O5: the encoding is as long as the format of its mnemonic, whose operand count a legal map puts in
IR[7:6]. -/
theorem lengthComesFromTheFirstByte : Obligations.LengthComesFromTheFirstByte := by
  intro map legal ir a b i h
  obtain ⟨m, hm, rfl⟩ := decode_ok h
  rw [encodeUndoesDecode map ir a b _ h, legal.operandCount_of_lookup hm, Mnemonic.build_mnemonic, Mnemonic.length]
  exact List.length_take_of_le (Nat.add_le_add_left m.operandCount_le_two 1)

/-- Settles O6: with an operand count of 0 no operand byte is decoded, with 1 only the first. -/
theorem unusedOperandBytesAreIgnored : Obligations.UnusedOperandBytesAreIgnored := by
  intro map legal ir a b a' b'
  refine ⟨fun h => legal.decode_congr ?_, fun h => legal.decode_congr ?_⟩
  · rw [h, List.take_zero, List.take_zero]
  · rw [h, List.take_succ_cons, List.take_succ_cons, List.take_zero, List.take_zero]

/-- Settles O7: the bytes with IR[7:6] = 3 are the upper quarter, and no mnemonic has three operands. -/
theorem operandCountThreeIsUndefined : Obligations.OperandCountThreeIsUndefined := by
  intro map legal ir a b
  have hlt := ir.isLt
  have three : (opcodeN ir).toNat = 3 ↔ 0xC0 ≤ ir.toNat := by
    rw [opcodeN_toNat]
    omega
  refine ⟨three, fun h => ?_⟩
  cases hm : map.lookup ir with
  | none => exact decode_of_lookup_none a b hm
  | some m =>
    have hcount : 3 = m.operandCount := (three.mpr h).symm.trans (legal.operandCount_of_lookup hm)
    have hle := m.operandCount_le_two
    omega

theorem defaultOpcodeMap_legal : defaultOpcodeMap.Legal := by decide

/-- Settles O8: the bytes and the machine's map by definition, and the undefined bytes as for every legal map. -/
theorem defaultOpcodeMapIsTheTable : Obligations.DefaultOpcodeMapIsTheTable :=
  ⟨rfl, defaultOpcodeMap_legal, rfl, defaultOpcodeMap_legal.undefined_count⟩

/-- The opcode byte of a mnemonic under the default map decodes to its instruction. -/
theorem decode_defaultOpcodeMap (m : Mnemonic) (a b : Byte) :
    decode defaultOpcodeMap (defaultOpcodeMap m) a b = .ok (m.build a b) :=
  decode_of_lookup a b (defaultOpcodeMap_legal.lookup m)

/-- Settles O9: each word but the last begins with the default byte of its mnemonic; 0xA1 is no mnemonic's. -/
theorem specWordsDecode : Obligations.SpecWordsDecode := by
  have undefined : ∀ m, defaultOpcodeMap m ≠ 0xA1 := by
    intro m
    cases m <;> decide
  exact ⟨decode_defaultOpcodeMap .hlt 0 0, decode_defaultOpcodeMap .ret 0 0, decode_defaultOpcodeMap .push 7 0,
    decode_defaultOpcodeMap .prn 4 0, decode_defaultOpcodeMap .jne 3 0, decode_defaultOpcodeMap .ldi 3 200,
    decode_defaultOpcodeMap .add 0 1, decode_defaultOpcodeMap .cmp 2 2,
    decode_of_lookup_none 0 0 (OpcodeMap.lookup_eq_none.mpr undefined)⟩

end Sys2Proof
end

section
/-! Every instruction and every step answers: each shared operation goes on or raises, and raising answers a next state
(spec 30_encoding.md R72, 40_fetch_decode_execute.md R90, 44_system_and_output.md R163; log 2). -/

namespace Sys2Proof.Machine

/-- The outcome is a next state: no host fault and no refusal. -/
def Answers (o : Host.Outcome State Fault Refusal) : Prop := ∃ t, o = .next t

namespace Answers

variable {s p : State} {m : Mnemonic} {a b : Byte} {k : Byte → Host.Outcome State Fault Refusal}

theorem next (t : State) : Answers (.next t) := ⟨t, rfl⟩

theorem raise (f : Fault) (s : State) : Answers (raise f s) := ⟨s.withFault f, rfl⟩

theorem withAddress {x : Int} (hk : ∀ v, Answers (k v)) : Answers (withAddress x s k) := by
  by_cases hx : 0 ≤ x ∧ x < 256
  · rw [withAddress_inside hx.1 hx.2]
    exact hk _
  · rw [withAddress_outside hx]
    exact raise _ s

theorem withPushSlot (hk : ∀ v, Answers (k v)) : Answers (withPushSlot s k) := withAddress hk

theorem withPoppedSp (hk : ∀ v, Answers (k v)) : Answers (withPoppedSp s k) := withAddress hk

theorem withNextPc (hk : ∀ v, Answers (k v)) : Answers (withNextPc m s k) := withAddress hk

theorem advance : Answers (advance m s p) := withNextPc fun v => next (p.setPc v)

theorem withRegister {k : Fin Config.numRegs → Host.Outcome State Fault Refusal} (hk : ∀ r, Answers (k r)) :
    Answers (withRegister a s k) := by
  by_cases ha : a.toNat < 8
  · rw [withRegister_named ha]
    exact hk _
  · rw [withRegister_unnamed ha]
    exact raise _ s

theorem withRegisters {k : Fin Config.numRegs → Fin Config.numRegs → Host.Outcome State Fault Refusal}
    (hk : ∀ ra rb, Answers (k ra rb)) : Answers (withRegisters a b s k) :=
  withRegister fun ra => withRegister fun rb => hk ra rb

theorem jumpTo : Answers (jumpTo a s) := withRegister fun r => next (s.setPc (s.reg r))

theorem aluWrite {f : Byte → Byte → Byte} : Answers (aluWrite m f a b s) := withRegisters fun _ _ => advance

/-- The meaning of every instruction is built from operations that answer. -/
theorem exec (i : Instr) (s : State) : Answers (exec i s) := by
  cases i with
  | hlt => exact advance
  | ret => exact withPoppedSp fun _ => next _
  | push a =>
    rw [exec_push]
    exact withRegister fun _ => withPushSlot fun _ => advance
  | pop a =>
    rw [exec_pop]
    exact withRegister fun _ => withPoppedSp fun _ => advance
  | prn a =>
    rw [exec_prn]
    exact withRegister fun _ => advance
  | call a =>
    rw [exec_call]
    exact withRegister fun _ => withPushSlot fun _ => withNextPc fun _ => next _
  | jmp a => exact jumpTo
  | jeq a =>
    rw [exec_jeq]
    split
    · exact jumpTo
    · exact advance
  | jne a =>
    rw [exec_jne]
    split
    · exact advance
    · exact jumpTo
  | ldi a imm =>
    rw [exec_ldi]
    exact withRegister fun _ => advance
  | add a b | mul a b | and a b | or a b | xor a b => exact aluWrite
  | cmp a b =>
    rw [exec_cmp]
    exact withRegisters fun _ _ => advance

theorem fetch {k : Byte → Byte → Byte → Host.Outcome State Fault Refusal} (hk : ∀ ir a b, Answers (k ir a b)) :
    Answers (fetch s k) := withAddress fun _ => withAddress fun _ => hk _ _ _

theorem fetchDecode {map : OpcodeMap} {k : Instr → Host.Outcome State Fault Refusal} (hk : ∀ i, Answers (k i)) :
    Answers (fetchDecode map s k) := by
  refine fetch fun ir a b => ?_
  split
  · exact hk _
  · exact raise _ s

/-- A step from a state without a recorded fault stays halted, or fetches and executes. -/
theorem stepWith {map : OpcodeMap} (h : s.fault = none) : Answers (stepWith map s) := by
  by_cases hr : s.running = true
  · rw [stepWith_live ⟨hr, h⟩]
    exact fetchDecode fun i => exec i s
  · exact ⟨s, by simp [Machine.stepWith, h, hr]⟩

end Answers

/-- Settles O20: only a recorded fault makes a step answer anything but a next state, and then it answers that
fault. -/
theorem everyStepAnswers : Obligations.EveryStepAnswers := by
  refine ⟨Answers.exec, fun map s => ?_⟩
  cases h : s.fault with
  | none => exact .inl ⟨rfl, Answers.stepWith h⟩
  | some f => exact .inr ⟨f, rfl, by rw [stepWith, h]⟩

end Sys2Proof.Machine
end

section
/-! One step, case by case: a terminal state stays, the fetch at the top faults, an undefined byte faults, and a defined
one runs its instruction, a word placed at pc among them (spec 40_fetch_decode_execute.md R90 to R94, R96). -/

namespace Sys2Proof.Machine

open Sys2Proof.Safety

section
variable {map : OpcodeMap} {i : Instr} {s : State}

theorem stepWith_faulted {f : Fault} (h : s.fault = some f) : stepWith map s = .fault f := by rw [stepWith, h]

theorem stepWith_halted (h : s.fault = none) (hr : s.running = false) : stepWith map s = .next s := by
  simp [stepWith, h, hr]

/-- A live step at 254 or 255 faults before anything is decoded. -/
theorem stepWith_fetch_outside (h : Live s) (hp : 253 < s.pc.toNat) :
    stepWith map s = .next (faultedState s (memoryFault 256)) := by
  rw [stepWith_live h, fetchDecode, fetch_outside hp]
  rfl

/-- Settles O10: the step asks the fault record first and running second, before it fetches. -/
theorem terminalStateStaysAsItIs : Obligations.TerminalStateStaysAsItIs := by
  refine fun map s => ⟨fun f hf => ⟨stepPortWith_faulted hf, stepWith_faulted hf⟩, fun hf hr => ?_⟩
  have hstep : stepWith map s = .next s := stepWith_halted hf hr
  exact ⟨outcome_halted hf hr ▸ stepPortWith_next hstep, hstep⟩

/-- Settles O11: the fetch at 254 and 255 faults, and from 253 a HLT still has room for its advance. -/
theorem fetchPastTheTopFaults : Obligations.FetchPastTheTopFaults := by
  refine fun map s live => ⟨stepWith_fetch_outside live, fun legal hp hm => ?_⟩
  rw [stepWith_hlt live hp.le legal (hp ▸ hm), hp]
  rfl

/-- Settles O12: a live step executes what it fetches, under the machine's own map too. -/
theorem stepRunsTheDecodedInstruction : Obligations.StepRunsTheDecodedInstruction :=
  ⟨fun _ _ _ => stepWith_fetches, fun _ _ => stepWith_fetches⟩

/-- Settles O13: the lookup finds no mnemonic, so decoding raises. -/
theorem undefinedOpcodeFaults : Obligations.UndefinedOpcodeFaults := fun _ _ => stepWith_unknownOpcode

/-! ### A placed word -/

theorem withFetchWord_pc (s : State) (nbits w : Nat) : (s.withFetchWord nbits w).pc = s.pc := rfl

/-- The word's three bytes are written at pc, pc + 1 and pc + 2, in this order. -/
theorem withFetchWord_mem (s : State) (nbits w : Nat) :
    (s.withFetchWord nbits w).mem =
      ((s.mem.write s.pc.toNat (tableBytes nbits w).1).write (s.pc + 1).toNat (tableBytes nbits w).2.1).write
        (s.pc + 2).toNat (tableBytes nbits w).2.2 := rfl

/-- Three bytes written one after the other at neighbouring addresses are all read back. -/
theorem Memory.read_write_three {m : Memory} {x : Nat} (hm : m.wf = true) (hx : x ≤ 253) (ir a b : Byte) :
    (((m.write x ir).write (x + 1) a).write (x + 2) b).read x = ir ∧
      (((m.write x ir).write (x + 1) a).write (x + 2) b).read (x + 1) = a ∧
      (((m.write x ir).write (x + 1) a).write (x + 2) b).read (x + 2) = b := by
  have canonical {m : Memory} {y : Nat} (v : Byte) (hm : m.wf = true) (hy : y < 256) : (m.write y v).wf = true :=
    wfFrom_write hm (Nat.zero_le y) hy
  have h1 := canonical ir hm (y := x) (by omega)
  have h2 := canonical a h1 (y := x + 1) (by omega)
  refine ⟨?_, ?_, read_write_same _ b h2⟩
  · rw [read_write_other b h2 (by omega), read_write_other a h1 (by omega), read_write_same x ir hm]
  · rw [read_write_other b h2 (by omega), read_write_same _ a h1]

theorem decode_of_decodeTableWord {nbits w : Nat} (h : decodeTableWord nbits w = some i) :
    decode opcodeMap (tableBytes nbits w).1 (tableBytes nbits w).2.1 (tableBytes nbits w).2.2 = .ok i := by
  rw [decodeTableWord] at h
  cases hd : decode opcodeMap (tableBytes nbits w).1 (tableBytes nbits w).2.1 (tableBytes nbits w).2.2 with
  | ok j => simpa [hd, Except.toOption] using h
  | error e => simp [hd, Except.toOption] at h

/-- A state with a word placed at pc fetches the instruction the word decodes to. -/
theorem fetches_withFetchWord {nbits w : Nat} (hm : s.mem.wf = true) (hp : s.pc.toNat ≤ 253)
    (h : decodeTableWord nbits w = some i) : Fetches opcodeMap (s.withFetchWord nbits w) i := by
  have pcA : (s.pc + 1).toNat = s.pc.toNat + 1 := by bv_omega
  have pcB : (s.pc + 2).toNat = s.pc.toNat + 2 := by bv_omega
  obtain ⟨readIr, readA, readB⟩ := Memory.read_write_three hm hp (tableBytes nbits w).1 (tableBytes nbits w).2.1
    (tableBytes nbits w).2.2
  refine ⟨hp, ?_⟩
  rw [withFetchWord_pc, withFetchWord_mem, pcA, pcB, readIr, readA, readB, decode_of_decodeTableWord h]

/-- Settles O21: the placed word is what the next step fetches. -/
theorem placedWordIsTheNextInstruction : Obligations.PlacedWordIsTheNextInstruction :=
  fun _ _ _ _ hm hp h => stepWith_fetches ⟨rfl, rfl⟩ (fetches_withFetchWord hm hp h)

end

end Sys2Proof.Machine
end

section
/-! The new pc of an instruction that does not fault: the sequential advance, or the pc its handler writes (spec
40_fetch_decode_execute.md R96, R97, 43_control_transfer.md R145). -/

namespace Sys2Proof.Machine

section
variable {i : Instr} {s t : State} {a b : Byte}

/-- An address below 256 is the number of the byte made from it. -/
theorem pcByte_toNat {n : Nat} (h : n < 256) : (BitVec.ofNat 8 n).toNat = n := by
  rw [BitVec.toNat_ofNat, Nat.mod_eq_of_lt h]

/-- The register an operand names, looked up by its number. -/
theorem reg_toNat (ha : a.toNat < 8) : (s.reg ⟨a.toNat, ha⟩).toNat = (s.regs[a.toNat]?.getD 0).toNat := by
  rw [Vector.getElem?_eq_getElem ha]
  rfl

theorem Effect.AluEffect.pc {f : Byte → Byte → Byte} (h : Effect.AluEffect s t f a b) :
    s.pc.toNat + 3 < 256 ∧ t.pc = BitVec.ofNat 8 (s.pc.toNat + 3) := by
  obtain ⟨_, _, hp, rfl⟩ := h
  exact ⟨hp, rfl⟩

/-- The sequential advance: an instruction whose handler does not write pc has moved it on by its length. -/
theorem Effect.pc_sequential (h : Effect i s t) (hi : i.mnemonic.setsPc = false) :
    s.pc.toNat + i.mnemonic.length < 256 ∧ t.pc.toNat = s.pc.toNat + i.mnemonic.length := by
  suffices s.pc.toNat + i.mnemonic.length < 256 ∧ t.pc = BitVec.ofNat 8 (s.pc.toNat + i.mnemonic.length) from
    ⟨this.1, this.2 ▸ pcByte_toNat this.1⟩
  cases i with
  | hlt =>
    obtain ⟨hp, rfl⟩ := h
    exact ⟨hp, rfl⟩
  | prn a | ldi a imm =>
    obtain ⟨_, hp, rfl⟩ := h
    exact ⟨hp, rfl⟩
  | push a | pop a | cmp a b =>
    obtain ⟨_, _, hp, rfl⟩ := h
    exact ⟨hp, rfl⟩
  | add a b | mul a b | and a b | or a b | xor a b => exact h.pc
  | ret | call a | jmp a | jeq a | jne a => cases hi

/-- Settles O17: the sequential instructions by `Effect.pc_sequential`, the five others by the pc their effect holds. -/
theorem netPcChangeOfEachInstruction : Obligations.NetPcChangeOfEachInstruction := by
  intro i s t _ h ht
  have he : Effect i s t := effect_of_unfaulted h ht
  cases i with
  | hlt | push a | pop a | prn a | ldi a imm | add a b | mul a b | cmp a b | and a b | or a b | xor a b =>
    exact (he.pc_sequential rfl).2
  | ret =>
    obtain ⟨_, rfl⟩ := he
    rfl
  | call a =>
    obtain ⟨ha, _, _, rfl⟩ := he
    exact reg_toNat ha
  | jmp a =>
    obtain ⟨ha, rfl⟩ := he
    exact reg_toNat ha
  | jeq a =>
    obtain ⟨hf, ha, rfl⟩ | ⟨hf, hp, rfl⟩ := he
    · exact (reg_toNat ha).trans (if_pos hf).symm
    · exact (pcByte_toNat hp).trans (if_neg (Bool.eq_false_iff.mp hf)).symm
  | jne a =>
    obtain ⟨hf, ha, rfl⟩ | ⟨hf, hp, rfl⟩ := he
    · exact (reg_toNat ha).trans (if_neg (Bool.eq_false_iff.mp hf)).symm
    · exact (pcByte_toNat hp).trans (if_pos hf).symm

end

end Sys2Proof.Machine
end

section
/-! Which fault a step records: each shared operation adds its check in front of what it goes on with, so that an
instruction reports the first failing check of its list (spec 60_exceptions.md R176, 40_fetch_decode_execute.md R95, R96,
R99). -/

namespace Sys2Proof.Machine

open Sys2Proof.Safety

/-- The outcome is a next state whose fault record is `c`. -/
def Reports (c : Option Fault) (o : Host.Outcome State Fault Refusal) : Prop := ∃ t, o = .next t ∧ t.fault = c

/-- The register check over a list of accessed indices: the first one above 7 (60_exceptions.md R172). -/
def firstUnnamed (l : List Byte) : Option Fault := (l.find? fun r => decide (7 < r.toNat)).map registerFault

/-- The first failing check of an instruction that has been fetched: registers, stack, advance. -/
def execFault (i : Instr) (s : State) : Option Fault :=
  (firstUnnamed (accessedRegisters i s.fl)).or ((stackFault i s).or (advanceFault i s))

section
variable {map : OpcodeMap} {i : Instr} {s t : State} {a b : Byte} {l : List Byte} {c : Option Fault} {m : Mnemonic}
  {p : State} {k : Byte → Host.Outcome State Fault Refusal}

theorem firstUnnamed_cons_named (h : a.toNat < 8) : firstUnnamed (a :: l) = firstUnnamed l := by
  rw [firstUnnamed, List.find?_cons_of_neg (by simpa using Nat.le_of_lt_succ h), firstUnnamed]

theorem firstUnnamed_cons_unnamed (h : ¬a.toNat < 8) : firstUnnamed (a :: l) = some (registerFault a) := by
  rw [firstUnnamed, List.find?_cons_of_pos (by simpa using (show 7 < a.toNat by omega))]
  rfl

theorem firstUnnamed_eq_none (h : ∀ a ∈ l, a.toNat < 8) : firstUnnamed l = none := by
  rw [firstUnnamed, Option.map_eq_none_iff, List.find?_eq_none]
  intro a ha
  simpa using Nat.le_of_lt_succ (h a ha)

namespace Reports

theorem next (h : t.fault = c) : Reports c (.next t) := ⟨t, rfl, h⟩

theorem raise (f : Fault) (s : State) : Reports (some f) (raise f s) := next rfl

theorem withRegister {k : Fin Config.numRegs → Host.Outcome State Fault Refusal}
    (hk : ∀ r, Reports ((firstUnnamed l).or c) (k r)) : Reports ((firstUnnamed (a :: l)).or c) (withRegister a s k) := by
  by_cases ha : a.toNat < 8
  · rw [firstUnnamed_cons_named ha, withRegister_named ha]
    exact hk _
  · rw [firstUnnamed_cons_unnamed ha, withRegister_unnamed ha]
    exact raise _ s

theorem withRegisters {k : Fin Config.numRegs → Fin Config.numRegs → Host.Outcome State Fault Refusal}
    (hk : ∀ ra rb, Reports c (k ra rb)) : Reports ((firstUnnamed [a, b]).or c) (withRegisters a b s k) :=
  withRegister fun ra => withRegister fun rb => hk ra rb

theorem withPushSlot (hk : ∀ v, Reports c (k v)) :
    Reports ((if s.sp.toNat = 0 then some (memoryFault (-1)) else none).or c) (withPushSlot s k) := by
  split
  · next h =>
    rw [withPushSlot_full h]
    exact raise _ s
  · next h =>
    rw [withPushSlot_room (Nat.pos_of_ne_zero h)]
    exact hk _

theorem withPoppedSp (hk : ∀ v, Reports c (k v)) :
    Reports ((if s.sp.toNat = 255 then some (memoryFault 256) else none).or c) (withPoppedSp s k) := by
  split
  · next h =>
    rw [withPoppedSp_end h]
    exact raise _ s
  · next h =>
    have := s.sp.isLt
    rw [withPoppedSp_room (by omega)]
    exact hk _

/-- The advance check of the instruction `i`, whose handler does not write pc. -/
theorem advance (hi : i.mnemonic.setsPc = false) (hp : p.fault = none) :
    Reports (advanceFault i s) (advance i.mnemonic s p) := by
  by_cases h : s.pc.toNat + i.mnemonic.length < 256
  · rw [advanceFault, if_neg (by omega), advance_inside h]
    exact next hp
  · rw [advanceFault, if_pos ⟨hi, by omega⟩, advance_outside (by omega)]
    exact raise _ s

/-- The pc after a CALL or an untaken jump is an address wherever the instruction can have been fetched. -/
theorem withNextPc (h : s.pc.toNat + m.length < 256) (hk : ∀ v, Reports c (k v)) : Reports c (withNextPc m s k) := by
  rw [withNextPc_inside h]
  exact hk _

theorem jumpTo (h : s.fault = none) : Reports ((firstUnnamed [a]).or none) (jumpTo a s) := withRegister fun _ => next h

theorem aluWrite {f : Byte → Byte → Byte} (hi : i.mnemonic.setsPc = false) (h : s.fault = none) :
    Reports ((firstUnnamed [a, b]).or (advanceFault i s)) (aluWrite i.mnemonic f a b s) :=
  withRegisters fun _ _ => advance hi h

/-- An instruction that can have been fetched reports the first failing check of its list. -/
theorem exec (h : s.fault = none) (hp : s.pc.toNat ≤ 253) : Reports (execFault i s) (exec i s) := by
  have room {m : Mnemonic} (hm : m.length = 2) : s.pc.toNat + m.length < 256 := by omega
  have untaken {m : Mnemonic} (hm : m.length = 2) : Reports none (Machine.advance m s s) :=
    withNextPc (room hm) fun _ => next h
  cases i with
  | hlt => exact advance rfl h
  | ret =>
    rw [exec_ret]
    exact withPoppedSp fun _ => next h
  | push a =>
    rw [exec_push]
    exact withRegister fun _ => withPushSlot fun _ => advance rfl h
  | pop a =>
    rw [exec_pop]
    exact withRegister fun _ => withPoppedSp fun _ => advance rfl h
  | prn a =>
    rw [exec_prn]
    exact withRegister fun _ => advance rfl h
  | ldi a imm =>
    rw [exec_ldi]
    exact withRegister fun _ => advance rfl h
  | call a =>
    rw [exec_call]
    exact withRegister fun _ => withPushSlot fun _ => withNextPc (room rfl) fun _ => next h
  | jmp a => exact jumpTo h
  | jeq a =>
    rw [exec_jeq, execFault, accessedRegisters]
    split
    · exact jumpTo h
    · exact untaken rfl
  | jne a =>
    rw [exec_jne, execFault, accessedRegisters]
    split
    · exact untaken rfl
    · exact jumpTo h
  | add a b | mul a b | and a b | or a b | xor a b => exact aluWrite rfl h
  | cmp a b =>
    rw [exec_cmp]
    exact withRegisters fun _ _ => advance rfl h

end Reports

/-! ### The step -/

theorem firstFault_of_fetches (h : Fetches map s i) : firstFault map s = execFault i s := by
  rw [firstFault, if_neg (Nat.not_lt.mpr h.1), h.2]
  rfl

/-- A live step reports the first failing check: fetch, decode, and then those of the instruction fetched. -/
theorem Reports.stepWith (h : Live s) : Reports (firstFault map s) (stepWith map s) := by
  rcases Nat.lt_or_ge 253 s.pc.toNat with hp | hp
  · rw [firstFault, if_pos hp, stepWith_fetch_outside h hp]
    exact next rfl
  · cases hm : map.lookup (s.mem.read s.pc.toNat) with
    | none =>
      rw [firstFault, if_neg (Nat.not_lt.mpr hp), decode_of_lookup_none _ _ hm,
        stepWith_unknownOpcode h hp (OpcodeMap.lookup_eq_none.mp hm)]
      exact next rfl
    | some m =>
      have hf : Fetches map s (m.build (s.mem.read (s.pc.toNat + 1)) (s.mem.read (s.pc.toNat + 2))) :=
        ⟨hp, decode_of_lookup _ _ hm⟩
      rw [firstFault_of_fetches hf, stepWith_fetches h hf]
      exact exec h.2 hp

/-- A step that records a fault makes no other change (60_exceptions.md R175). -/
theorem eq_faultedState_of_stepWith {f : Fault} (hs : s.fault = none) (h : Machine.stepWith map s = .next t)
    (ht : t.fault = some f) : t = faultedState s f := by
  suffices ∃ x, t = s.withFault x by
    obtain ⟨x, rfl⟩ := this
    injection ht with hx
    rw [hx]
    rfl
  obtain ⟨-, ⟨-, rfl⟩ | ⟨-, i, -, he⟩ | ⟨-, -, rfl⟩ | ⟨-, -, -, rfl⟩⟩ := stepWith_next h
  · exact nomatch hs.symm.trans ht
  · exact withFault_of_faulted hs he (by simp [ht])
  · exact ⟨_, rfl⟩
  · exact ⟨_, rfl⟩

/-- After an effect no fault is recorded, and only HLT has stopped the core. -/
theorem Effect.outcome (h : Effect i s t) (live : Live s) : t.outcome = if i = .hlt then .halted else .running := by
  have hf : t.fault = none := h.frame.fault.trans live.2
  split
  · next hi =>
    subst hi
    obtain ⟨_, rfl⟩ := h
    exact outcome_halted hf rfl
  · next hi => exact outcome_live ⟨(h.frame.running hi).trans live.1, hf⟩

/-- Settles O18: the step reports the first failing check; without one it has the effect of its instruction. -/
theorem stepOutcomeIsRunningHaltedOrFaulted : Obligations.StepOutcomeIsRunningHaltedOrFaulted := by
  intro map s live
  obtain ⟨t, ht, hc⟩ := Reports.stepWith (map := map) live
  have port : stepPortWith map s = .ok (t, t.outcome) := stepPortWith_next ht
  refine ⟨fun f hf => ?_, fun hf i hi => ⟨t, ht, ?_⟩⟩
  · have htf : t.fault = some f := hc.trans hf
    rw [port, outcome_faulted htf, eq_faultedState_of_stepWith live.2 ht htf]
  · have he : Effect i s t := effect_of_unfaulted ((stepWith_fetches live hi).symm.trans ht) (hc.trans hf)
    rw [port, he.outcome live]

/-! ### The opcode bits -/

/-- A legal map puts into IR[4] and IR[7:6] of a fetched instruction whether its handler writes pc and how many operands
it has (30_encoding.md R67). -/
theorem opcodeBits_of_fetches (h : Fetches map s i) (legal : map.Legal) :
    opcodeP (s.mem.read s.pc.toNat) = i.mnemonic.setsPc ∧
      (opcodeN (s.mem.read s.pc.toNat)).toNat = i.mnemonic.operandCount := by
  obtain ⟨m, hm, rfl⟩ := decode_ok h.2
  rw [Mnemonic.build_mnemonic, ← OpcodeMap.lookup_byte hm]
  exact ⟨legal.setsPc m, legal.operandCount m⟩

theorem setsPc_iff (i : Instr) :
    i.mnemonic.setsPc = true ↔ i = .ret ∨ ∃ a, i = .call a ∨ i = .jmp a ∨ i = .jeq a ∨ i = .jne a := by
  cases i <;> simp [Instr.mnemonic, Mnemonic.setsPc]

/-- Where the register and stack checks pass and the advance would leave the address space, that is the fault. -/
theorem execFault_eq_advance (hr : ∀ a ∈ accessedRegisters i s.fl, a.toNat < 8) (hs : stackFault i s = none)
    (hi : i.mnemonic.setsPc = false) (hp : 255 < s.pc.toNat + i.mnemonic.length) :
    execFault i s = some (memoryFault (s.pc.toNat + i.mnemonic.length : Nat)) := by
  rw [execFault, firstUnnamed_eq_none hr, hs, advanceFault, if_pos ⟨hi, hp⟩]
  rfl

/-- Settles O16: the bits are the mnemonic's, the advance is that of `Effect.pc_sequential`, and its fault is the last
check of the list. -/
theorem advanceFollowsTheOpcodeBits : Obligations.AdvanceFollowsTheOpcodeBits := by
  intro map legal s t i live hf ht ir next
  obtain ⟨hP, hN⟩ := opcodeBits_of_fetches hf legal
  have hnext : next = s.pc.toNat + i.mnemonic.length := by rw [Mnemonic.length, ← hN, ← Nat.add_assoc]
  have hexec : exec i s = .next t := (stepWith_fetches live hf).symm.trans ht
  rw [show opcodeP ir = i.mnemonic.setsPc from hP, hnext]
  refine ⟨fun hi => ⟨fun htf => ?_, fun hp hr hs => ?_⟩, setsPc_iff i⟩
  · obtain ⟨hlt, hpc⟩ := (effect_of_unfaulted hexec htf).pc_sequential hi
    exact ⟨Nat.le_of_lt_succ hlt, hpc⟩
  · obtain ⟨u, hu, huf⟩ := Reports.exec (i := i) live.2 hf.1
    obtain rfl : t = u := by simpa [hexec] using hu
    exact eq_faultedState_of_stepWith live.2 ht (huf.trans (execFault_eq_advance hr hs hi hp))

end

end Sys2Proof.Machine
end

section
/-! A run under fuel: it follows the step while the state is live, and ends with what its last state says (spec
40_fetch_decode_execute.md R100, R101, 10_state.md R33; log 10). -/

namespace Sys2Proof.Machine

open Sys2Proof.Safety

/-- The end of a run whose last state is `t`: that of the fault recorded, of a halted core, or out of fuel. -/
def State.runEnd (t : State) : RunEnd :=
  match t.fault with
  | some f => .faulted f
  | none => if t.running then .outOfFuel else .halted

section
variable {map : OpcodeMap} {s t u : State} {f : Fault} {n : Nat}

theorem runEnd_faulted (h : t.fault = some f) : t.runEnd = .faulted f := by rw [State.runEnd, h]

theorem runEnd_halted (h : t.fault = none) (hr : t.running = false) : t.runEnd = .halted := by
  simp [State.runEnd, h, hr]

theorem runEnd_live (h : Live t) : t.runEnd = .outOfFuel := by simp [State.runEnd, h.1, h.2]

/-- A state is live, halted, or holds a fault. -/
theorem live_or_terminal (t : State) : Live t ∨ (t.fault = none ∧ t.running = false) ∨ ∃ f, t.fault = some f := by
  cases hf : t.fault with
  | some f => exact .inr (.inr ⟨f, rfl⟩)
  | none =>
    cases hr : t.running with
    | true => exact .inl ⟨hr, hf⟩
    | false => exact .inr (.inl ⟨rfl, rfl⟩)

theorem runEnd_eq_outOfFuel : t.runEnd = .outOfFuel ↔ Live t := by
  rcases live_or_terminal t with h | ⟨hf, hr⟩ | ⟨f, hf⟩
  · exact iff_of_true (runEnd_live h) h
  · simp [runEnd_halted hf hr, hr]
  · simp [runEnd_faulted hf, hf]

theorem runEnd_eq_halted : t.runEnd = .halted ↔ t.fault = none ∧ t.running = false := by
  rcases live_or_terminal t with h | ⟨hf, hr⟩ | ⟨f, hf⟩
  · simp [runEnd_live h, h]
  · simp [runEnd_halted hf hr, hf, hr]
  · simp [runEnd_faulted hf, hf]

theorem runEnd_eq_faulted : t.runEnd = .faulted f ↔ t.fault = some f := by
  rcases live_or_terminal t with h | ⟨hf, hr⟩ | ⟨g, hf⟩
  · simp [runEnd_live h, h]
  · simp [runEnd_halted hf hr, hf]
  · simp [runEnd_faulted hf, hf]

/-- A run goes on after a step to a live state. -/
theorem runWith_step_live (h : stepWith map s = .next u) (hu : Live u) : runWith map (n + 1) s = runWith map n u :=
  runWith_running (outcome_live hu ▸ stepPortWith_next h)

/-- A run ends after a step to a terminal state. -/
theorem runWith_step_terminal (h : stepWith map s = .next u) (hu : ¬Live u) :
    runWith map (n + 1) s = .ok (u, u.runEnd) := by
  rcases live_or_terminal u with hl | ⟨hf, hr⟩ | ⟨f, hf⟩
  · exact absurd hl hu
  · rw [runEnd_halted hf hr]
    exact runWith_halted (outcome_halted hf hr ▸ stepPortWith_next h)
  · rw [runEnd_faulted hf]
    exact runWith_faulted (outcome_faulted hf ▸ stepPortWith_next h)

/-- A run from a live state takes live steps, as many as there is fuel or fewer if they lead to a terminal state; then
more fuel changes nothing. -/
theorem runWith_live (hs : Live s) : ∃ t k, runWith map n s = .ok (t, t.runEnd) ∧ k ≤ n ∧ LiveSteps map k s t ∧
    (Live t → k = n) ∧ (¬Live t → ∀ m, n ≤ m → runWith map m s = .ok (t, t.runEnd)) := by
  induction n generalizing s with
  | zero => exact ⟨s, 0, by rw [runWith, runEnd_live hs], Nat.le_refl 0, rfl, fun _ => rfl, fun ht => absurd hs ht⟩
  | succ n ih =>
    obtain ⟨u, hu⟩ := Answers.stepWith (map := map) hs.2
    by_cases live : Live u
    · obtain ⟨t, k, hrun, hk, hsteps, hfuel, hmore⟩ := ih live
      refine ⟨t, k + 1, (runWith_step_live hu live).trans hrun, Nat.succ_le_succ hk, ⟨hs, u, hu, hsteps⟩,
        fun ht => congrArg Nat.succ (hfuel ht), fun ht m hm => ?_⟩
      obtain ⟨m, rfl⟩ := Nat.exists_eq_add_of_le' hm
      exact (runWith_step_live hu live).trans (hmore ht _ (Nat.le_add_left n m))
    · refine ⟨u, 1, runWith_step_terminal hu live, Nat.succ_le_succ (Nat.zero_le n), ⟨hs, u, hu, rfl⟩,
        fun ht => absurd ht live, fun _ m hm => ?_⟩
      obtain ⟨m, rfl⟩ := Nat.exists_eq_add_of_le' hm
      exact runWith_step_terminal hu live

/-- Settles O19: the end of a run is what its last state says, and a step on a terminal state leaves it. -/
theorem runEndsAtTheFirstTerminalState : Obligations.RunEndsAtTheFirstTerminalState := by
  refine fun map n s => ⟨fun live => ?_, fun f hf => runWith_faulted (stepPortWith_faulted hf), fun hf hr => ?_⟩
  · obtain ⟨t, k, hrun, hk, hsteps, hfuel, hmore⟩ := runWith_live (map := map) (n := n) live
    exact ⟨t, t.runEnd, k, hrun, hk, hsteps, runEnd_eq_outOfFuel, fun he => hfuel (runEnd_eq_outOfFuel.mp he),
      runEnd_eq_halted, fun f => runEnd_eq_faulted, fun he => hmore fun ht => he (runEnd_live ht)⟩
  · exact runWith_halted ((terminalStateStaysAsItIs map s).2 hf hr).1

end

end Sys2Proof.Machine
end

section
/-! The ALU: the checks its six instructions share, in their order; the five that write a register, each as the rule of
its result on numbers; and CMP (spec 41_alu.md R110 to R116, 40_fetch_decode_execute.md R96). -/

namespace Sys2Proof.Machine

open Sys2Proof.Safety

section
variable {a b : Byte} {s : State} {m : Mnemonic}

theorem withRegisters_unnamed_left {k : Fin Config.numRegs → Fin Config.numRegs → Host.Outcome State Fault Refusal}
    (ha : 7 < a.toNat) : withRegisters a b s k = .next (faultedState s (registerFault a)) :=
  withRegister_unnamed (Nat.not_lt.mpr ha)

theorem withRegisters_unnamed_right {k : Fin Config.numRegs → Fin Config.numRegs → Host.Outcome State Fault Refusal}
    (ha : a.toNat < 8) (hb : 7 < b.toNat) : withRegisters a b s k = .next (faultedState s (registerFault b)) :=
  (withRegister_named ha).trans (withRegister_unnamed (Nat.not_lt.mpr hb))

/-- The one fetchable pc from which an instruction of three bytes cannot move on. -/
theorem advance_three_top {p : State} (hm : m.length = 3) (hp : s.pc.toNat = 253) :
    advance m s p = .next (faultedState s (memoryFault 256)) := by
  rw [advance_outside (by omega), hp, hm]
  rfl

theorem advance_three {p : State} (hm : m.length = 3) (hp : s.pc.toNat ≤ 252) :
    advance m s p = .next (p.setPc (BitVec.ofNat 8 (s.pc.toNat + 3))) := by
  rw [advance_inside (by omega), hm]

/-- An outcome made of the two register accesses and the advance by 3: the three faults in the order of their checks,
and else the pending writes committed. -/
theorem withRegisters_advance_cases {p : Fin Config.numRegs → Fin Config.numRegs → State}
    {o : Host.Outcome State Fault Refusal} (hm : m.length = 3)
    (ho : o = withRegisters a b s fun ra rb => advance m s (p ra rb)) :
    (7 < a.toNat → o = .next (faultedState s (registerFault a))) ∧
      (a.toNat < 8 → 7 < b.toNat → o = .next (faultedState s (registerFault b))) ∧
      ∀ (ha : a.toNat < 8) (hb : b.toNat < 8),
        (s.pc.toNat = 253 → o = .next (faultedState s (memoryFault 256))) ∧
        (s.pc.toNat ≤ 252 →
          o = .next ((p ⟨a.toNat, ha⟩ ⟨b.toNat, hb⟩).setPc (BitVec.ofNat 8 (s.pc.toNat + 3)))) := by
  subst ho
  refine ⟨withRegisters_unnamed_left, withRegisters_unnamed_right, fun ha hb => ?_⟩
  rw [withRegisters_named ha hb]
  exact ⟨advance_three_top hm, advance_three hm⟩

/-- An instruction that is `aluWrite` of a byte function follows the rule of that function on numbers. -/
theorem aluWriteRule_of_aluWrite {i : Byte → Byte → Instr} {opcode : Byte} {g : Byte → Byte → Byte}
    {f : Nat → Nat → Nat} (encoding : ∀ a b, encode defaultOpcodeMap (i a b) = [opcode, a, b])
    (meaning : ∀ a b s, exec (i a b) s = aluWrite m g a b s) (hm : m.length = 3)
    (result : ∀ x y, g x y = BitVec.ofNat 8 (f x.toNat y.toNat)) : AluWriteRule i opcode f := by
  intro a b s
  obtain ⟨faultA, faultB, named⟩ := withRegisters_advance_cases hm (meaning a b s)
  refine ⟨encoding a b, faultA, faultB, fun ha hb => ⟨(named ha hb).1, fun hp => ?_⟩⟩
  rw [(named ha hb).2 hp, result]
  rfl

theorem compareFlags_of_gt {x y : Byte} (h : x.toNat > y.toNat) : compareFlags x y = flagG := if_pos h

theorem compareFlags_of_lt {x y : Byte} (h : x.toNat < y.toNat) : compareFlags x y = flagL :=
  (if_neg h.not_gt).trans (if_pos h)

theorem compareFlags_of_eq {x y : Byte} (h : x.toNat = y.toNat) : compareFlags x y = flagE :=
  (if_neg h.not_gt).trans (if_neg h.not_lt)

end

/-- Settles O22: the sum is taken on numbers, so the carry is lost. -/
theorem addWritesTheSumModulo256 : Obligations.AddWritesTheSumModulo256 :=
  aluWriteRule_of_aluWrite (fun _ _ => rfl) exec_add rfl fun _ _ => rfl

/-- Settles O23: the product is taken on numbers, so its high byte is lost. -/
theorem mulWritesTheProductModulo256 : Obligations.MulWritesTheProductModulo256 :=
  aluWriteRule_of_aluWrite (fun _ _ => rfl) exec_mul rfl fun _ _ => rfl

/-- Settles O24: the and of two bytes is the byte of the and of their numbers. -/
theorem andWritesTheBitwiseAnd : Obligations.AndWritesTheBitwiseAnd :=
  aluWriteRule_of_aluWrite (fun _ _ => rfl) exec_and rfl fun x y => by
    rw [← BitVec.toNat_and, BitVec.ofNat_toNat, BitVec.setWidth_eq]

/-- Settles O25: the or of two bytes is the byte of the or of their numbers. -/
theorem orWritesTheBitwiseOr : Obligations.OrWritesTheBitwiseOr :=
  aluWriteRule_of_aluWrite (fun _ _ => rfl) exec_or rfl fun x y => by
    rw [← BitVec.toNat_or, BitVec.ofNat_toNat, BitVec.setWidth_eq]

/-- Settles O26: the exclusive or of two bytes is the byte of the exclusive or of their numbers. -/
theorem xorWritesTheBitwiseXor : Obligations.XorWritesTheBitwiseXor :=
  aluWriteRule_of_aluWrite (fun _ _ => rfl) exec_xor rfl fun x y => by
    rw [← BitVec.toNat_xor, BitVec.ofNat_toNat, BitVec.setWidth_eq]

/-- Settles O27: the checks are those of the other five, and the flags byte is fixed by the order of the operands. -/
theorem cmpWritesExactlyOneFlag : Obligations.CmpWritesExactlyOneFlag := by
  intro a b s
  obtain ⟨faultA, faultB, named⟩ := withRegisters_advance_cases rfl (exec_cmp a b s)
  refine ⟨rfl, faultA, faultB, fun ha hb => ⟨(named ha hb).1, fun hp => ?_⟩⟩
  exact ⟨_, (named ha hb).2 hp, compareFlags_of_gt, compareFlags_of_lt, compareFlags_of_eq⟩

end Sys2Proof.Machine
end

section
/-! LDI, PUSH and POP: the checks of each in their order, and the writes of each once the checks have passed; and the
value a PUSH stores, kept by the instructions off the stack until a POP takes it (spec 42_register_and_stack.md R130 to
R133). -/

namespace Sys2Proof.Machine

open Sys2Proof.Safety

section
variable {a : Byte} {i : Instr} {l : List Instr} {s t : State}

/-- An instruction that accesses one register first raises for an index above 7, whatever it goes on with. -/
theorem registerFault_of_withRegister {k : Fin Config.numRegs → Host.Outcome State Fault Refusal}
    {o : Host.Outcome State Fault Refusal} (ho : o = withRegister a s k) (ha : 7 < a.toNat) :
    o = .next (faultedState s (registerFault a)) :=
  ho.trans (withRegister_unnamed (Nat.not_lt.mpr ha))

/-- Settles O28: the advance by 3 is checked after the register, and nothing is written before it passes. -/
theorem ldiWritesTheImmediate : Obligations.LdiWritesTheImmediate := by
  refine fun a imm s => ⟨rfl, registerFault_of_withRegister (exec_ldi a imm s), fun ha => ?_⟩
  rw [exec_ldi, withRegister_named ha]
  exact ⟨advance_three_top rfl, advance_three rfl⟩

theorem exec_push_full (ha : a.toNat < 8) (hs : s.sp.toNat = 0) :
    exec (.push a) s = .next (faultedState s (memoryFault (-1))) := by
  rw [exec_push, withRegister_named ha, withPushSlot_full hs]
  rfl

/-- Settles O29: with room on the stack a PUSH leaves `s.pushed` of the register, whose memory is the old one with the
slot stored. -/
theorem pushStoresBelowTheStackPointer : Obligations.PushStoresBelowTheStackPointer := by
  refine fun a s hw => ⟨rfl, registerFault_of_withRegister (exec_push a s), fun ha => ⟨exec_push_full ha, ?_⟩⟩
  exact fun hs hp => ⟨_, exec_push_room ha hs (by omega), pushed_stored hw⟩

theorem exec_pop_end (ha : a.toNat < 8) (hs : s.sp.toNat = 255) :
    exec (.pop a) s = .next (faultedState s (memoryFault 256)) := by
  rw [exec_pop, withRegister_named ha, withPoppedSp_end hs]
  rfl

theorem exec_pop_room (ha : a.toNat < 8) (hs : s.sp.toNat < 255) (hp : s.pc.toNat + 2 < 256) :
    exec (.pop a) s = .next (((s.setReg ⟨a.toNat, ha⟩ (s.memRead s.sp)).setSp (BitVec.ofNat 8 (s.sp.toNat + 1))).setPc
      (BitVec.ofNat 8 (s.pc.toNat + 2))) := by
  rw [exec_pop, withRegister_named ha, withPoppedSp_room hs]
  exact advance_inside hp

/-- Settles O30: a POP writes the register, sp and pc, and reads memory only. -/
theorem popReadsAtTheStackPointer : Obligations.PopReadsAtTheStackPointer := by
  refine fun a s => ⟨rfl, registerFault_of_withRegister (exec_pop a s), fun ha => ⟨exec_pop_end ha, ?_⟩⟩
  exact fun hs hp => exec_pop_room ha (by omega) (by omega)

/-- What instructions off the stack keep, from `s` to `t`: sp, memory, and a fault record that is set. -/
structure StackKept (s t : State) : Prop where
  sp : t.sp = s.sp
  mem : t.mem = s.mem
  unfaulted : t.fault = none → s.fault = none

theorem StackKept.trans {u : State} (h : StackKept s t) (h' : StackKept t u) : StackKept s u :=
  ⟨h'.sp.trans h.sp, h'.mem.trans h.mem, fun hu => h.unfaulted (h'.unfaulted hu)⟩

theorem stackKept_of_exec (hi : usesStack i = false) (h : exec i s = .next t) : StackKept s t := by
  rcases exec_next h with he | ⟨x, rfl⟩
  · have notStore (a : Byte) : i ≠ .push a ∧ i ≠ .call a := by
      constructor <;> rintro rfl <;> cases hi
    exact ⟨he.frame.sp hi, he.frame.mem notStore, fun ht => he.frame.fault.symm.trans ht⟩
  · exact ⟨rfl, rfl, nofun⟩

theorem stackKept_of_execAll (hl : ∀ i ∈ l, usesStack i = false) (h : execAll l s = .next t) : StackKept s t := by
  induction l generalizing s with
  | nil =>
    cases h
    exact ⟨rfl, rfl, id⟩
  | cons i rest ih =>
    obtain ⟨hi, hrest⟩ := List.forall_mem_cons.mp hl
    rw [execAll] at h
    split at h
    · next u hu => exact (stackKept_of_exec hi hu).trans (ih hrest h)
    · cases h
    · cases h

theorem Effect.reg_of_pop {b : Byte} (h : Effect (.pop b) s t) :
    ∃ hb : b.toNat < 8, t.regs[b.toNat] = s.mem.read s.sp.toNat ∧ t.mem = s.mem := by
  obtain ⟨hb, _, _, rfl⟩ := h
  exact ⟨hb, reg_setReg_same s ⟨b.toNat, hb⟩ _, rfl⟩

theorem Effect.read_of_push (hw : s.mem.wf = true) (h : Effect (.push a) s t) :
    ∃ ha : a.toNat < 8, t.mem.read t.sp.toNat = s.regs[a.toNat] := by
  obtain ⟨ha, _, _, rfl⟩ := h
  exact ⟨ha, Memory.read_write_same _ _ hw⟩

end

/-- Settles O47: no fault at the end means none at any instruction, so the PUSH and the POP have had their effect, and
the instructions between keep sp and the cell it points at. -/
theorem pushThenPopRestores : Obligations.PushThenPopRestores := by
  intro a b between s s₁ s₂ t hw off hpush hbetween hpop _ ht
  have kept : StackKept s₁ s₂ := stackKept_of_execAll off hbetween
  have pop : Effect (.pop b) s₂ t := effect_of_unfaulted hpop ht
  have push : Effect (.push a) s s₁ :=
    effect_of_unfaulted hpush (kept.unfaulted (pop.frame.fault.symm.trans ht))
  obtain ⟨ha, top⟩ := push.read_of_push hw
  obtain ⟨hb, popped, mem⟩ := pop.reg_of_pop
  have down : s₁.sp.toNat + 1 = s.sp.toNat := push.sp_down (.inl rfl)
  have up : t.sp.toNat = s₁.sp.toNat + 1 := kept.sp ▸ pop.sp_up (.inr ⟨b, rfl⟩)
  refine ⟨ha, hb, ?_, BitVec.eq_of_toNat_eq (up.trans down), ?_⟩
  · rw [popped, kept.mem, kept.sp, top]
  · rw [mem, kept.mem, ← down, Nat.add_sub_cancel, top]

end Sys2Proof.Machine
end

section
/-! CALL, RET and the jumps: the checks of each in their order and the transfer once they have passed; and the way back
from a CALL by a RET that finds the stack as the CALL left it (spec 43_control_transfer.md R140 to R144, R148). -/

namespace Sys2Proof.Machine

open Sys2Proof.Safety

section
variable {a v target : Byte} {s : State}

theorem exec_call_full (ha : a.toNat < 8) (hs : s.sp.toNat = 0) :
    exec (.call a) s = .next (faultedState s (memoryFault (-1))) := by
  rw [exec_call, withRegister_named ha, withPushSlot_full hs]
  rfl

theorem exec_ret_end (hs : s.sp.toNat = 255) : exec .ret s = .next (faultedState s (memoryFault 256)) := by
  rw [exec_ret, withPoppedSp_end hs]
  rfl

theorem exec_ret_room (hs : s.sp.toNat < 255) :
    exec .ret s = .next ((s.setPc (s.memRead s.sp)).setSp (BitVec.ofNat 8 (s.sp.toNat + 1))) := by
  rw [exec_ret, withPoppedSp_room hs]

/-- A taken jump: its one check is the register's, and the target is not checked (43_control_transfer.md R145). -/
theorem jumpTo_cases (a : Byte) (s : State) :
    (7 < a.toNat → jumpTo a s = .next (faultedState s (registerFault a))) ∧
      ∀ _ : a.toNat < 8, jumpTo a s = .next { s with pc := s.regs[a.toNat] } :=
  ⟨fun ha => jumpTo_unnamed (Nat.not_lt.mpr ha), jumpTo_named⟩

/-- What a jump not taken does: a step reaches it at a pc up to 253 only, so the advance by 2 always passes. -/
theorem advance_two {m : Mnemonic} {p : State} (hm : m.length = 2) (hp : s.pc.toNat ≤ 253) :
    advance m s p = .next (p.setPc (BitVec.ofNat 8 (s.pc.toNat + 2))) := by
  rw [advance_inside (by omega), hm]

/-- The cell at the top of the stack after a push holds the byte pushed. -/
theorem pushed_top (hw : s.mem.wf = true) : (s.pushed v target).mem.read (s.pushed v target).sp.toNat = v := by
  rw [pushed_sp_toNat]
  exact (pushed_stored hw).1

/-- A pop takes sp back to where it was before the push. -/
theorem pushed_sp_up (hs : 1 ≤ s.sp.toNat) : BitVec.ofNat 8 ((s.pushed v target).sp.toNat + 1) = s.sp := by
  rw [pushed_sp_toNat, Nat.sub_add_cancel hs, BitVec.ofNat_toNat, BitVec.setWidth_eq]

end

/-- Settles O31: with room on the stack a CALL leaves `s.pushed` of the return address, whose memory is the old one with
the slot stored. -/
theorem callStoresTheReturnAddress : Obligations.CallStoresTheReturnAddress := by
  refine fun a s hw => ⟨rfl, registerFault_of_withRegister (exec_call a s), fun ha => ⟨exec_call_full ha, ?_⟩⟩
  exact fun hs hp => ⟨_, exec_call_room ha hs (by omega), pushed_stored hw⟩

/-- Settles O32: a RET checks the stack alone, and not the byte it finds there. -/
theorem retPopsTheProgramCounter : Obligations.RetPopsTheProgramCounter :=
  ⟨rfl, fun _ => ⟨exec_ret_end, fun hs => exec_ret_room (by omega)⟩⟩

/-- Settles O33: a JMP is a jump always taken. -/
theorem jmpJumpsToTheRegister : Obligations.JmpJumpsToTheRegister := fun a s => ⟨rfl, jumpTo_cases a s⟩

/-- Settles O34: bit 0 of fl chooses between the jump and the advance, and only the jump looks at the register. -/
theorem jeqJumpsIfEqualIsSet : Obligations.JeqJumpsIfEqualIsSet := by
  refine fun a s => ⟨rfl, fun equal => ?taken, fun unequal hp => ?notTaken⟩
  case taken =>
    rw [exec_jeq, if_pos equal]
    exact jumpTo_cases a s
  case notTaken =>
    rw [exec_jeq, if_neg (Bool.eq_false_iff.mp unequal)]
    exact advance_two rfl hp

/-- Settles O35: JEQ's choice with the sides exchanged. -/
theorem jneJumpsIfEqualIsClear : Obligations.JneJumpsIfEqualIsClear := by
  refine fun a s => ⟨rfl, fun unequal => ?taken, fun equal hp => ?notTaken⟩
  case taken =>
    rw [exec_jne, if_neg (Bool.eq_false_iff.mp unequal)]
    exact jumpTo_cases a s
  case notTaken =>
    rw [exec_jne, if_pos equal]
    exact advance_two rfl hp

/-- Settles O48: the CALL leaves `s.pushed` of the return address; a RET pops that byte and takes sp back up, and reads
nothing else of the state it finds. -/
theorem returnGoesBehindTheCall : Obligations.ReturnGoesBehindTheCall := by
  intro a s s₁ s₂ hw ha hs hp hcall hsp htop
  obtain rfl : s.pushed _ _ = s₁ := Host.Outcome.next.inj ((exec_call_room ha hs (by omega)).symm.trans hcall)
  have room : s₂.sp.toNat < 255 := by
    have := s.sp.isLt
    rw [hsp, pushed_sp_toNat]
    omega
  have popped : s₂.memRead s₂.sp = BitVec.ofNat 8 (s.pc.toNat + 2) := by
    rw [memRead_eq, hsp, htop, pushed_top hw]
  have up : BitVec.ofNat 8 (s₂.sp.toNat + 1) = s.sp := by rw [hsp, pushed_sp_up hs]
  rw [exec_ret_room room, popped, up]
  rfl

end Sys2Proof.Machine
end

section
/-! HLT and PRN: the checks of each and the writes once they have passed; and the state a HLT leaves, where every later
step stays (spec 44_system_and_output.md R160, R161). -/

namespace Sys2Proof.Machine

open Sys2Proof.Safety

section
variable {s t : State}

/-- A HLT has room for its advance by 1 at every pc a step can fetch from. -/
theorem exec_hlt_room (hp : s.pc.toNat ≤ 253) :
    exec .hlt s = .next (s.halt.setPc (BitVec.ofNat 8 (s.pc.toNat + 1))) := by
  have room : s.pc.toNat + 1 < 256 := by omega
  rw [exec_hlt]
  exact advance_inside room

theorem exec_hlt_running (h : exec .hlt s = .next t) (ht : t.fault = none) : t.running = false := by
  obtain ⟨_, rfl⟩ := effect_of_unfaulted h ht
  rfl

end

/-- Settles O36: the advance of a HLT cannot fail where a fetch succeeds, and the state it leaves is a terminal one. -/
theorem hltStopsTheCore : Obligations.HltStopsTheCore := by
  refine ⟨rfl, fun s => ⟨exec_hlt_room, stepWith_fetch_outside, fun t map _ hexec ht => ?_⟩⟩
  have halted : t.running = false := exec_hlt_running hexec ht
  exact ((terminalStateStaysAsItIs map t).2 ht halted).1

/-- Settles O37: the register is checked before the byte is emitted, and the advance by 2 then always passes. -/
theorem prnAppendsTheRegister : Obligations.PrnAppendsTheRegister := by
  refine fun a s => ⟨rfl, registerFault_of_withRegister (exec_prn a s), fun ha hp => ?_⟩
  rw [exec_prn, withRegister_named ha]
  exact advance_two rfl hp

end Sys2Proof.Machine
end

section
/-! What a step that faults does: it records the first failing check of its order, and changes nothing else (spec
60_exceptions.md R172, R175, R176). -/

namespace Sys2Proof.Machine

/-- Settles O14: the fetch, the decoder and the instruction fetched each report the first check that fails
(`Reports.stepWith`). -/
theorem stepReportsTheFirstFailingCheck : Obligations.StepReportsTheFirstFailingCheck :=
  fun _ _ live => Reports.stepWith live

/-- Settles O15: of what a step can do, only raising leaves a fault recorded where none was
(`eq_faultedState_of_stepWith`). -/
theorem faultCommitsNothing : Obligations.FaultCommitsNothing :=
  fun _ _ _ _ => eq_faultedState_of_stepWith

end Sys2Proof.Machine
end

section
/-! Reset and load: the state right after reset, its first step, and what loading an image makes of its memory (spec
70_reset_and_hazards.md R190, R191). -/

namespace Sys2Proof.Machine

open Sys2Proof.Safety

/-- An image that fits is read back from where it was put; past its end the cells read 0. -/
theorem Memory.read_ofImage {image : List Byte} {addr : Nat} (h : addr + image.length ≤ Config.memSize) (k : Nat) :
    (Memory.ofImage addr image).read (addr + k) = image.getD k 0 := by
  induction image generalizing addr k with
  | nil => rfl
  | cons v rest ih =>
    have hrest : addr + 1 + rest.length ≤ Config.memSize := by rw [List.length_cons] at h; omega
    rw [Memory.ofImage, read_consCell _ (wfFrom_ofImage hrest)]
    cases k with
    | zero => exact if_pos rfl
    | succ k =>
      have hne : addr + (k + 1) ≠ addr := by omega
      have hnext : addr + (k + 1) = addr + 1 + k := by omega
      rw [if_neg hne, hnext, ih hrest, List.getD_cons_succ]

theorem loadProgram_nil : loadProgram [] = .ok State.reset := Memory.loadProgram_fits (Nat.zero_le _)

/-- No instruction of the machine's map has the opcode byte 0, which is what memory holds after reset. -/
theorem opcodeMap_ne_zero (m : Mnemonic) : opcodeMap m ≠ 0 := by cases m <;> decide

theorem step_reset : step State.reset = .next (faultedState State.reset (.unknownOpcode 0 0x00)) :=
  stepWith_unknownOpcode ⟨rfl, rfl⟩ (Nat.zero_le _) opcodeMap_ne_zero

/-- Settles O1: the register file is checked register by register, and the empty memory reads 0 everywhere. -/
theorem resetHoldsTheSpecValues : Obligations.ResetHoldsTheSpecValues :=
  ⟨loadProgram_nil, by decide, rfl, rfl, rfl, rfl, rfl, rfl, Memory.read_nil⟩

/-- Settles O2: the loaded state differs from the reset state in its memory alone, and that memory is the image's
(`Memory.read_ofImage`); an empty image leaves the reset state itself (`step_reset`). -/
theorem loadProgramBuildsTheResetState : Obligations.LoadProgramBuildsTheResetState := by
  refine ⟨fun image fits => ?_, fun _ => Memory.loadProgram_tooLong, fun s loaded => ?_⟩
  · obtain ⟨-, regs, pc, sp, fl, running, fault, out, -⟩ := resetHoldsTheSpecValues
    have inMemory : 0 + image.length ≤ Config.memSize := (Nat.zero_add _).trans_le fits
    have cell (k : Nat) : (Memory.ofImage 0 image).read k = image.getD k 0 := by
      simpa using Memory.read_ofImage inMemory k
    refine ⟨_, Memory.loadProgram_fits fits, regs, pc, sp, fl, running, fault, out,
      fun k hk => ?_, fun k hk => ?_, Memory.wfFrom_ofImage inMemory⟩
    · rw [cell, List.getD_eq_getElem _ _ hk]
    · rw [cell, List.getD_eq_default _ _ hk]
  · obtain rfl : State.reset = s := Except.ok.inj (loadProgram_nil ▸ loaded)
    exact step_reset

/-- Settles O50: nothing is listed in memory after reset, and fl is 0. -/
theorem resetHasTheInvariant : Obligations.ResetHasTheInvariant := ⟨Memory.wf_reset, .inl rfl⟩

end Sys2Proof.Machine
end
